-- ==== Sys2Proof/Word.lean ====
section
/-! DEFINITION. The byte and the register number of the LS-8 core (R5, R7, R20). -/

namespace Sys2Proof

/-- An unsigned 8-bit value: a memory cell, a register, an address, an opcode (R5, R7). Its `+`, `-` and `*`
are the `+8`, `-8` and `*8` of R7, all modulo 256
(UNVERIFIED: the spec's own decisions D1 and D2, logs 4 and 5). -/
abbrev Byte := BitVec 8

/-- A general register's index, 0 to 7 (R20): R0 to R7 in assembly. -/
abbrev RegNum := Fin 8

end Sys2Proof
end

