-- ==== Sys2Proof/Config.lean ====
section
/-! DEFINITION. What an implementation fixes: the parameters of R5. The nine opcode bytes are a record of
parameters (R66: "A model takes the five values as configuration"); the values this machine has are
`Sys2Proof.opcodes` in Decode.lean. No value of this hardware is left free: the spec states every result. -/

namespace Sys2Proof

/-- The nine opcode bytes by name (R5, R65). -/
structure OpcodeMap where
  ldi : Byte
  prn : Byte
  hlt : Byte
  add : Byte
  mul : Byte
  push : Byte
  pop : Byte
  call : Byte
  ret : Byte
  deriving DecidableEq, Repr

/-- `MEM_SIZE`, the number of memory cells (R5, R40). -/
def Config.memSize : Nat := 256

/-- `SP_INDEX`, the register that is the stack pointer (R5, R21). -/
def Config.spIndex : RegNum := 7

/-- `SP_RESET` (R5, R33). -/
def Config.spReset : Byte := 0xF4#8

/-- `PC_RESET` (R5, R33). -/
def Config.pcReset : Byte := 0x00#8

/-- `LOAD_BASE`, where the program image's first byte goes (R5, R74). -/
def Config.loadBase : Byte := 0x00#8

end Sys2Proof
end

