-- ==== Sys2Proof/Syntax.lean ====
section
/-! DEFINITION. The nine instructions (R1, R65), their kinds (R89), their formats (R64) and the ALU's
operation tags (R110, R114). -/

namespace Sys2Proof

/-- The nine operation kinds the decoder names (R89). -/
inductive OpKind where
  | ldi | prn | hlt | add | mul | push | pop | call | ret
  deriving DecidableEq, Repr

/-- The four formats of R64. -/
inductive Format where
  | z    -- opcode alone
  | r    -- opcode, register
  | rr   -- opcode, register, register
  | ri   -- opcode, register, immediate
  deriving DecidableEq, Repr

/-- The operation tag handed to the ALU (R110). A program only ever supplies `add` and `mul`; `other` stands
for any tag outside {ADD, MUL}, for which the ALU's contract names a fatal error (R114, R161).
DESIGN CHOICE (log 3): the spec keeps tags abstract, the number only tells such tags apart. -/
inductive AluTag where
  | add
  | mul
  | other (tag : Nat)
  deriving DecidableEq, Repr

/-- An instruction with its operands, the register operands already reduced to register numbers (R64). -/
inductive Instr where
  | ldi (ra : RegNum) (imm : Byte)
  | prn (ra : RegNum)
  | hlt
  | add (ra rb : RegNum)
  | mul (ra rb : RegNum)
  | push (ra : RegNum)
  | pop (ra : RegNum)
  | call (ra : RegNum)
  | ret
  deriving DecidableEq, Repr

/-- The kind of an instruction. -/
def Instr.kind : Instr → OpKind
  | .ldi _ _ => .ldi
  | .prn _ => .prn
  | .hlt => .hlt
  | .add _ _ => .add
  | .mul _ _ => .mul
  | .push _ => .push
  | .pop _ => .pop
  | .call _ => .call
  | .ret => .ret

end Sys2Proof
end

