-- ==== Sys2Proof/Decode.lean ====
section
/-! DEFINITION. The opcode bytes of this machine, the decoder (R60 to R66, R89, R142) and the encoder.
The formats and the rows of the
opcode map stand here too; `regOf`, `nops`, `setsPc` are the bit fields every later file uses. -/

namespace Sys2Proof

/-- The opcode bytes of this machine: R65's column "Opcode byte", which is spec/opcode_table.json's.
PRESUMED (log 1) for ADD, PUSH, POP, CALL, RET: the spec takes those five defaults from general knowledge. -/
def opcodes : OpcodeMap where
  ldi := 0x82#8
  prn := 0x47#8
  hlt := 0x01#8
  add := 0xA0#8
  mul := 0xA2#8
  push := 0x45#8
  pop := 0x46#8
  call := 0x50#8
  ret := 0x11#8

/-- The format column of R65. -/
def OpKind.format : OpKind → Format
  | .ldi => .ri
  | .prn | .push | .pop | .call => .r
  | .add | .mul => .rr
  | .hlt | .ret => .z

/-- How many operand bytes a format has (R64). -/
def Format.operandCount : Format → Nat
  | .z => 0
  | .r => 1
  | .rr | .ri => 2

/-- The control-transfer kinds: the ones whose handler sets `pc` itself (R61, R65). -/
def OpKind.setsPc : OpKind → Bool
  | .call | .ret => true
  | .ldi | .prn | .hlt | .add | .mul | .push | .pop => false

/-- The rows of the opcode map, in the table's order (R65). -/
def OpKind.all : List OpKind := [.ldi, .prn, .hlt, .add, .mul, .push, .pop, .call, .ret]

/-- The opcode byte a map gives a kind (R65). -/
def OpcodeMap.byte (m : OpcodeMap) : OpKind → Byte
  | .ldi => m.ldi
  | .prn => m.prn
  | .hlt => m.hlt
  | .add => m.add
  | .mul => m.mul
  | .push => m.push
  | .pop => m.pop
  | .call => m.call
  | .ret => m.ret

/-- `opcode[7:6]`, the number of operand bytes that follow (R61). -/
def nops (op : Byte) : Nat := (op >>> 6).toNat

/-- `opcode[4]`, the handler sets `pc` itself (R61). -/
def setsPc (op : Byte) : Bool := op.getLsbD 4

/-- `a[2:0]`, the register number a register operand byte selects; bits 7:3 are ignored (R64;
UNVERIFIED: the spec's own decision D3, log 6). -/
def regOf (a : Byte) : RegNum := Fin.ofNat 8 (a.extractLsb' 0 3).toNat

/-- The register operand byte `00000rrr` (R64). -/
def regByte (r : RegNum) : Byte := BitVec.ofNat 8 r.val

/-- The Dispatch Table: the kind whose opcode byte equals `op` in all eight bits (R65, R89;
UNVERIFIED: exactly nine by the spec's own decision D5, log 2). -/
def decodeOpcode (m : OpcodeMap) (op : Byte) : Option OpKind :=
  OpKind.all.find? fun k => m.byte k == op

/-- The instruction of a kind with operand bytes `a` and `b`, of which a format without them uses none (R64). -/
def instrOf (k : OpKind) (a b : Byte) : Instr :=
  match k with
  | .ldi => .ldi (regOf a) b
  | .prn => .prn (regOf a)
  | .hlt => .hlt
  | .add => .add (regOf a) (regOf b)
  | .mul => .mul (regOf a) (regOf b)
  | .push => .push (regOf a)
  | .pop => .pop (regOf a)
  | .call => .call (regOf a)
  | .ret => .ret

/-- The ALU operation tag the decoder yields for ADD and MUL, and for no other kind (R89, R110). -/
def aluTagOf : OpKind → Option AluTag
  | .add => some .add
  | .mul => some .mul
  | .ldi | .prn | .hlt | .push | .pop | .call | .ret => none

/-- The outputs of the block `opcode_decoder` (R142). `kind` and `aluOp` are meaningful as R89 says; where they
are not, they are absent here. -/
structure DecoderOut where
  supported : Bool
  kind : Option OpKind
  operandCount : Nat
  setsPc : Bool
  aluOp : Option AluTag
  deriving DecidableEq, Repr

/-- The block `opcode_decoder`, a function of the opcode byte (R89, R142). -/
def opcodeDecoder (m : OpcodeMap) (ir : Byte) : DecoderOut where
  supported := (decodeOpcode m ir).isSome
  kind := decodeOpcode m ir
  operandCount := nops ir
  setsPc := setsPc ir
  aluOp := (decodeOpcode m ir).bind aluTagOf

/-- Why bytes are not an instruction. -/
inductive DecodeError where
  | unsupportedOpcode (op : Byte)   -- R70
  | truncated                       -- the bytes end inside an instruction; a memory of 256 cells never does
  deriving DecidableEq, Repr

/-- Reads one instruction from the front of a byte string and gives the bytes after it (R60, R64, R65). -/
def decode (m : OpcodeMap) : List Byte → Except DecodeError (Instr × List Byte)
  | [] => .error .truncated
  | op :: rest =>
    match decodeOpcode m op with
    | none => .error (.unsupportedOpcode op)
    | some k =>
      match k.format, rest with
      | .z, rest => .ok (instrOf k 0 0, rest)
      | .r, a :: rest => .ok (instrOf k a 0, rest)
      | .rr, a :: b :: rest => .ok (instrOf k a b, rest)
      | .ri, a :: b :: rest => .ok (instrOf k a b, rest)
      | _, _ => .error .truncated

/-- The operand bytes of an instruction, reserved bits zero (R64, R71). -/
def operandBytes : Instr → List Byte
  | .ldi ra imm => [regByte ra, imm]
  | .prn ra => [regByte ra]
  | .hlt => []
  | .add ra rb => [regByte ra, regByte rb]
  | .mul ra rb => [regByte ra, regByte rb]
  | .push ra => [regByte ra]
  | .pop ra => [regByte ra]
  | .call ra => [regByte ra]
  | .ret => []

/-- The bytes of an instruction, the opcode byte first (R46, R64, R65). -/
def encode (m : OpcodeMap) (i : Instr) : List Byte := m.byte i.kind :: operandBytes i

/-- Byte `k` of a word numbered as spec/opcode_table.json numbers bits: the first byte is bits 7:0. -/
def tableByte (w k : Nat) : Byte := BitVec.ofNat 8 (w >>> (8 * k))

/-- The three bytes, first byte first, of the table word `w` of `nbits` bits; every bit above `nbits` is 0. -/
def tableBytes (nbits w : Nat) : List Byte :=
  [tableByte (w % 2 ^ nbits) 0, tableByte (w % 2 ^ nbits) 1, tableByte (w % 2 ^ nbits) 2]

/-- The instruction the decoder reads from a table word. -/
def decodeTableWord (nbits w : Nat) : Option Instr :=
  match decode opcodes (tableBytes nbits w) with
  | .ok (i, _) => some i
  | .error _ => none

end Sys2Proof
end

