-- ==== Sys2Proof/WellFormed.lean ====
section
/-! DEFINITION. The checks on what the machine is given from outside: an opcode map (R62, R66), the bytes of a
program text (R64, R71) and a program image (R75). Every value of `Instr` is well formed by its type: a register
number is 0 to 7 and an immediate is a byte. The step uses none of these checks. -/

namespace Sys2Proof

/-- What R65 and R66 fix of the nine opcode bytes: the four printed ones, bits 7:6 and bit 4 of the other five,
and that the nine are pairwise different. -/
abbrev OpcodeMap.Valid (m : OpcodeMap) : Prop :=
  m.ldi = 0x82#8 ∧ m.prn = 0x47#8 ∧ m.hlt = 0x01#8 ∧ m.mul = 0xA2#8 ∧
  (nops m.add = 2 ∧ setsPc m.add = false) ∧
  (nops m.push = 1 ∧ setsPc m.push = false) ∧
  (nops m.pop = 1 ∧ setsPc m.pop = false) ∧
  (nops m.call = 1 ∧ setsPc m.call = true) ∧
  (nops m.ret = 0 ∧ setsPc m.ret = true) ∧
  (OpKind.all.map m.byte).Nodup

/-- A register operand byte as assemblers must write it: bits 7:3 zero (R71). The hardware also runs the other
values (R64). -/
def registerByteOk (a : Byte) : Bool := a >>> 3 == 0#8

/-- The operand bytes of one instruction of a format, as assemblers must write them (R64, R71). -/
def operandsOk : Format → List Byte → Bool
  | .z, [] => true
  | .r, [a] => registerByteOk a
  | .rr, [a, b] => registerByteOk a && registerByteOk b
  | .ri, [a, _] => registerByteOk a
  | _, _ => false

/-- The bytes of exactly one instruction of the map, as assemblers must write them (R64, R65, R71). -/
def bytesOk (m : OpcodeMap) : List Byte → Bool
  | [] => false
  | op :: rest =>
    match decodeOpcode m op with
    | none => false
    | some k => operandsOk k.format rest

/-- Operand bytes with the reserved bits 7:3 of each register operand byte cleared (R64, R71). -/
def clearReserved : Format → List Byte → List Byte
  | .r, [a] => [a &&& 7#8]
  | .rr, [a, b] => [a &&& 7#8, b &&& 7#8]
  | .ri, [a, v] => [a &&& 7#8, v]
  | _, bs => bs

/-- A program image that can be loaded: at most 256 bytes (R75). -/
def imageOk (image : List Byte) : Bool := image.length ≤ Config.memSize

end Sys2Proof
end

