-- ==== Sys2Proof/Machine/State.lean ====
section
/-! DEFINITION. The state of the machine: the tuple `(M, x[0..7], pc, IR, running, fault, out)` of
spec/10_state.md, its reset values (R33, R180), and the reasons a step can stop. -/

namespace Sys2Proof.Machine

/-- Memory (R32, R40): the cells that do not hold what an unlisted address reads as, by rising
address (DESIGN CHOICE: the representation, log 9). -/
abbrev Memory := List Host.Cell

/-- What an address no entry lists reads as: every cell is 0x00 after reset (R33, R180, log 9). -/
def Memory.unlisted : Byte := 0x00#8

/-- Every entry's address is at least `lo` and below 256, addresses strictly rise, no entry is redundant. -/
def Memory.wfFrom (lo : Nat) : Memory → Bool
  | [] => true
  | (a, v) :: rest =>
    decide (lo ≤ a) && decide (a < Config.memSize) && (v != Memory.unlisted) && Memory.wfFrom (a + 1) rest

/-- The canonical form of memory. -/
def Memory.wf (m : Memory) : Bool := Memory.wfFrom 0 m

/-- The two fatal errors with the values they report (R26, R160, R161). -/
inductive FatalError where
  | unsupportedOpcode (ir pc : Byte)
  | unsupportedALUOperation (tag : AluTag)
  deriving DecidableEq, Repr

/-- The complete state (R10, R28: nothing else exists; R31: nothing is hidden). -/
structure State where
  /-- R0 to R7 (R20); register 7 is the stack pointer (R21). -/
  regs : Vector Byte 8
  /-- The program counter (R23). -/
  pc : Byte
  /-- The instruction register, the most recently fetched opcode byte (R24). -/
  ir : Byte
  /-- The run-state flag (R25). -/
  running : Bool
  /-- The fault record, `none` or the first fatal error (R26). -/
  fault : Option FatalError
  /-- The bytes PRN has emitted since the launch, oldest first (R27). -/
  out : List Byte
  /-- The 256 cells (R32, R40). -/
  mem : Memory
  deriving DecidableEq, Repr

/-- Why a step has no next state. -/
inductive Fault where
  /-- The machine is not running: "a state with `running = 0` has no step and is the end of the run" (R80).
  Raised by `step` alone, never by a meaning. Safe: the hardware takes no step either (log 7). -/
  | notRunning
  deriving DecidableEq, Repr

/-- Why the model gives an instruction no meaning. -/
inductive Refusal where
  /-- An arm of `exec` whose instruction has no meaning yet. No arm raises it: all nine are modelled. Safe. -/
  | notModelled (mnemonic : String)
  deriving DecidableEq, Repr

/-- What a step or a meaning answers. -/
abbrev Result := Host.Outcome State Fault Refusal

/-- The machine after reset, the "After reset" column of R33 (R180). It is not running: the host loads an image
and gives `start` (R150, R151; Machine/Launch.lean). `IR`, `running`, `fault` and `out` are UNVERIFIED: the spec's
own decisions D8, D10, D11 (log 15). -/
def State.reset : State where
  regs := #v[0x00#8, 0x00#8, 0x00#8, 0x00#8, 0x00#8, 0x00#8, 0x00#8, Config.spReset]
  pc := Config.pcReset
  ir := 0x00#8
  running := false
  fault := none
  out := []
  mem := []

end Sys2Proof.Machine
end

