-- ==== Sys2Proof/Machine/Ops.lean ====
section
/-! DEFINITION. The operations the step and the meanings share: memory, registers, the stack, the output,
the advance of `pc`, and the fatal error. -/

namespace Sys2Proof.Machine

/-! ### Memory (spec/20_memory.md) -/

/-- The byte listed at an address, or what an unlisted address reads as. -/
def Memory.lookup : Memory → Nat → Byte
  | [], _ => Memory.unlisted
  | (b, v) :: rest, a => if a = b then v else Memory.lookup rest a

/-- `m` with `v` at an address, kept in canonical form. -/
def Memory.insert : Memory → Nat → Byte → Memory
  | [], a, v => if v = Memory.unlisted then [] else [(a, v)]
  | (b, w) :: rest, a, v =>
    if a < b then
      if v = Memory.unlisted then (b, w) :: rest else (a, v) :: (b, w) :: rest
    else if a = b then
      if v = Memory.unlisted then rest else (a, v) :: rest
    else (b, w) :: Memory.insert rest a v

/-- `MemRead(addr, 1)` (R8, R41). Every 8-bit address is a cell (R42, R44). -/
def Memory.read (m : Memory) (a : Byte) : Byte := Memory.lookup m a.toNat

/-- `MemWrite(addr, 1, v)` (R8, R41). -/
def Memory.write (m : Memory) (a v : Byte) : Memory := Memory.insert m a.toNat v

/-- Bytes stored at increasing addresses from `a`, modulo 256 (R46, R74). -/
def Memory.storeFrom (m : Memory) (a : Byte) : List Byte → Memory
  | [] => m
  | v :: vs => Memory.storeFrom (Memory.write m a v) (a + 1#8) vs

/-- `MemRead` on the machine's memory; it changes nothing (R48). -/
def State.load (s : State) (a : Byte) : Byte := Memory.read s.mem a

/-- `MemWrite` on the machine's memory. -/
def State.store (s : State) (a v : Byte) : State := { s with mem := Memory.write s.mem a v }

/-! ### Registers -/

/-- `x[r]` (R8, R20). -/
def State.reg (s : State) (r : RegNum) : Byte := s.regs[r]

/-- `x[r] <- v` (R8, R20). No register is hardwired or read-only. -/
def State.setReg (s : State) (r : RegNum) (v : Byte) : State := { s with regs := s.regs.set r v }

/-- `SP`, a synonym of `x[7]` (R21). -/
def State.sp (s : State) : Byte := s.reg Config.spIndex

/-- `pc <- t` (R8). -/
def State.setPc (s : State) (t : Byte) : State := { s with pc := t }

/-- `IR <- v`. -/
def State.setIr (s : State) (v : Byte) : State := { s with ir := v }

/-! ### The stack (R120, R147) -/

/-- `dec`: `x[7] <- x[7] -8 1`. -/
def State.decSp (s : State) : State := s.setReg Config.spIndex (s.sp - 1#8)

/-- `inc`: `x[7] <- x[7] +8 1`. -/
def State.incSp (s : State) : State := s.setReg Config.spIndex (s.sp + 1#8)

/-- The effective address of a push: the stack pointer after the decrement (R120). -/
def State.pushAddr (s : State) : Byte := s.decSp.sp

/-- A push: decrement, then store at the new stack pointer. The value is that of an expression evaluated after
the decrement, which is the statement order of PUSH's and CALL's rows (R120, R121, R130; UNVERIFIED: the spec's own decision D7, log 13). -/
def State.push (value : State → Byte) (s : State) : State :=
  s.decSp.store s.decSp.sp (value s.decSp)

/-- A pop: read at the stack pointer, hand the byte to its destination, then increment (R120, R122, R131;
UNVERIFIED: the increment after the write by the spec's own decision D7, log 13). -/
def State.pop (dest : State → Byte → State) (s : State) : State :=
  (dest s (s.load s.sp)).incSp

/-- CALL's return address, the byte after its operand, `pc +8 2` (R130). -/
def State.returnAddress (s : State) : Byte := s.pc + 2#8

/-! ### Output, halt, fatal error -/

/-- `emit(v)`: `out <- out ++ [v]` (R8, R27, R101; UNVERIFIED: the spec's own decision D10, log 10). -/
def State.emit (s : State) (v : Byte) : State := { s with out := s.out ++ [v] }

/-- `running <- 0` by HLT (R102). -/
def State.halt (s : State) : State := { s with running := false }

/-- UNVERIFIED: the record is the spec's own decision D11 (log 11). What a fatal error does, the nearest thing to taking an exception here (R82, R163): the error is recorded,
the machine stops running, and nothing else changes; `pc` keeps the address of the instruction. The next state
exists; it has no step. There is no return from it (R167). -/
def State.fatal (s : State) (e : FatalError) : State := { s with fault := some e, running := false }

/-! ### The advance phase and `pc_controller` (R85, R90, R145) -/

/-- `pc +8 (IR[7:6] + 1)` of an opcode byte (R85; UNVERIFIED: the wrap is the spec's own decision D2, log 5). -/
def nextInOrder (pc ir : Byte) : Byte := pc + BitVec.ofNat 8 (nops ir + 1)

/-- The advance phase: `if IR[4] = 0 then pc <- pc +8 (IR[7:6] + 1)`, by the latched `IR` (R85). -/
def State.advance (s : State) : State :=
  if setsPc s.ir then s else s.setPc (nextInOrder s.pc s.ir)

end Sys2Proof.Machine
end

