-- ==== Sys2Proof/Machine/Operands.lean ====
section
/-! DEFINITION. Fetch, decode and operand read (R81 to R83): where the bytes of the next instruction stand and
what instruction they are. Both operand bytes are read before the handler changes anything (R50, R83; UNVERIFIED: the
spec's own decision D6, log 12), and a stored byte is seen by the next fetch (R52; D15, log 14). -/

namespace Sys2Proof.Machine

/-- Fetch: `IR <- MemRead(pc, 1)`; `pc` is not changed (R81). -/
def State.fetch (s : State) : State := s.setIr (s.load s.pc)

/-- The first operand byte `a`, at `pc +8 1` (R64, R83). -/
def State.operandA (s : State) : Byte := s.load (s.pc + 1#8)

/-- The second operand byte `b`, at `pc +8 2` (R64, R83). -/
def State.operandB (s : State) : Byte := s.load (s.pc + 2#8)

/-- The instruction of the latched `IR` and the operand bytes after it, if an opcode map has the opcode (R82, R83).
A format that has no byte `a` or `b` uses none: `instrOf` drops it, and a read has no side effect (R48). -/
def State.instr (s : State) (m : OpcodeMap) : Option Instr :=
  (decodeOpcode m s.ir).map fun k => instrOf k s.operandA s.operandB

/-- The three bytes from `pc` on, modulo 256: the longest instruction there can be (R46, R60). -/
def State.window (s : State) : List Byte := [s.load s.pc, s.operandA, s.operandB]

end Sys2Proof.Machine
end

