-- ==== Sys2Proof/Machine/Alu.lean ====
section
/-! DEFINITION. The block `alu_8bit` and the arithmetic instructions ADD and MUL (spec/42_alu.md). There are no
flags to compute (R29). That a result above 255 wraps is the spec's own decision D1 (UNVERIFIED, log 4). -/

namespace Sys2Proof.Machine

/-- `alu(op, p, q)` (R110, R111, R143): the low 8 bits of the exact unsigned result; any tag other than ADD and
MUL gives no result and raises `UnsupportedALUOperation` (R114). -/
def alu (op : AluTag) (p q : Byte) : Except FatalError Byte :=
  match op with
  | .add => .ok (BitVec.ofNat 8 (p.toNat + q.toNat))
  | .mul => .ok (BitVec.ofNat 8 (p.toNat * q.toNat))
  | .other n => .error (.unsupportedALUOperation (.other n))

/-- The ALU's contract `apply(op, regA, regB)` (R110): `x[ra] <- alu(op, x[ra], x[rb])`, both read before the
write, then the advance; a fatal error ends the step instead (R163). -/
def aluApply (op : AluTag) (ra rb : RegNum) (s : State) : Result :=
  match alu op (s.reg ra) (s.reg rb) with
  | .ok v => .next (s.setReg ra v).advance
  | .error e => .next (s.fatal e)

/-- ADD (R112). -/
def execAdd (ra rb : RegNum) (s : State) : Result := aluApply .add ra rb s

/-- MUL (R113). -/
def execMul (ra rb : RegNum) (s : State) : Result := aluApply .mul ra rb s

end Sys2Proof.Machine
end

