-- ==== Sys2Proof/Machine/Control.lean ====
section
/-! DEFINITION. Control transfer: CALL and RET (spec/44_call_return.md). Their opcodes have bit 4 set, so the
advance phase leaves the `pc` they set. -/

namespace Sys2Proof.Machine

/-- `pc <- x[ra]`, which CALL does after its push. -/
def State.jumpReg (s : State) (ra : RegNum) : State := s.setPc (s.reg ra)

/-- CALL (R130): push `pc +8 2`, then `pc <- x[ra]`, with `x[ra]` read after the push. -/
def execCall (ra : RegNum) (s : State) : Result := .next ((s.push State.returnAddress).jumpReg ra).advance

/-- RET (R131): `pc <- MemRead(x[7], 1); x[7] <- x[7] +8 1`. -/
def execRet (s : State) : Result := .next (s.pop State.setPc).advance

end Sys2Proof.Machine
end

