-- ==== Sys2Proof/Machine/DataSystem.lean ====
section
/-! DEFINITION. Data movement and system instructions: LDI, PRN, HLT (spec/41_data_and_system.md). Each meaning
is the execute phase and then the advance phase, on a state whose `IR` the fetch has latched. -/

namespace Sys2Proof.Machine

/-- LDI (R100): `x[ra] <- b`. -/
def execLdi (ra : RegNum) (imm : Byte) (s : State) : Result := .next (s.setReg ra imm).advance

/-- PRN (R101): `emit(x[ra])`. -/
def execPrn (ra : RegNum) (s : State) : Result := .next (s.emit (s.reg ra)).advance

/-- HLT (R102): `running <- 0`; the advance phase still runs. -/
def execHlt (s : State) : Result := .next s.halt.advance

end Sys2Proof.Machine
end

