-- ==== Sys2Proof/Machine/Stack.lean ====
section
/-! DEFINITION. The stack instructions PUSH and POP (spec/43_stack.md), by `State.push` and `State.pop`. -/

namespace Sys2Proof.Machine

/-- PUSH (R121): `x[7] <- x[7] -8 1; MemWrite(x[7], 1, x[ra])`, with `x[ra]` read after the decrement. -/
def execPush (ra : RegNum) (s : State) : Result := .next (s.push fun t => t.reg ra).advance

/-- POP (R122): `x[ra] <- MemRead(x[7], 1); x[7] <- x[7] +8 1`, the increment after the write of `x[ra]`. -/
def execPop (ra : RegNum) (s : State) : Result := .next (s.pop fun t v => t.setReg ra v).advance

end Sys2Proof.Machine
end

