-- ==== Sys2Proof/Machine/Cycle.lean ====
section
/-! DEFINITION. One cycle of the engine for every opcode map (R80 to R86): the map is an argument, because the spec
leaves five of the nine opcode bytes open as named parameters (R5, R66, its decision D4). -/

namespace Sys2Proof.Machine

/-- The step under an opcode map: fetch; an opcode the map does not have is the fatal error
`UnsupportedOpcode(IR, pc)` and ends the step; else the instruction is executed and `pc` advanced. A machine that is
not running has no step (log 7). -/
def stepWith (m : OpcodeMap) (s : State) : Result :=
  if s.running then
    match s.fetch.instr m with
    | none => .next (s.fetch.fatal (.unsupportedOpcode s.fetch.ir s.fetch.pc))
    | some i => exec i s.fetch
  else .fault .notRunning

end Sys2Proof.Machine
end

