-- ==== Sys2Proof/Machine/Step.lean ====
section
/-! DEFINITION. One step of the machine (R86), and the placing of an instruction where the next step fetches. -/

namespace Sys2Proof.Machine

/-- The step of this machine: the cycle under the spec's default opcode bytes (R5, R65, R86; log 1). -/
def step (s : State) : Host.Outcome State Fault Refusal := stepWith opcodes s

/-- `s` with the table word's bytes stored at `pc` and the machine running, so that the next step runs it. It
stands for the host's load and start (R150, R151; log 8). -/
def State.withFetchWord (s : State) (nbits w : Nat) : State :=
  { s with mem := Memory.storeFrom s.mem s.pc (tableBytes nbits w), running := true }

end Sys2Proof.Machine
end

