-- ==== Sys2Proof/Machine/Interface.lean ====
section
/-! DEFINITION. What one step puts on the block's interfaces: the memory transactions in order (R41, R50, R146),
the output port (R148) and `pc_controller`'s selection (R90, R145). The step does not use this file; it says the
same step as its transactions. DESIGN CHOICE: a transaction is its kind, address and byte (log 17). -/

namespace Sys2Proof.Machine

/-- One transaction on the memory port (R146). -/
inductive MemTransaction where
  | read (addr rdata : Byte)
  | write (addr wdata : Byte)
  deriving DecidableEq, Repr

/-- What a transaction leaves in memory. -/
def MemTransaction.apply (m : Memory) : MemTransaction → Memory
  | .read _ _ => m
  | .write a v => Memory.write m a v

/-- Is the transaction a write? -/
def MemTransaction.isWrite : MemTransaction → Bool
  | .read _ _ => false
  | .write _ _ => true

/-- A read of the machine's memory as a transaction. -/
def State.readTransaction (s : State) (a : Byte) : MemTransaction := .read a (s.load a)

/-- The operand reads of a latched opcode byte: as many as `IR[7:6]` says, at `pc +8 1` and `pc +8 2` (R50). -/
def State.operandTransactions (s : State) : List MemTransaction :=
  [s.readTransaction (s.pc + 1#8), s.readTransaction (s.pc + 2#8)].take (nops s.ir)

/-- The stack transaction of an instruction, if it has one (R41, R146). -/
def State.stackTransactions (s : State) : Instr → List MemTransaction
  | .push ra => [.write s.pushAddr (s.decSp.reg ra)]
  | .call _ => [.write s.pushAddr s.decSp.returnAddress]
  | .pop _ => [s.readTransaction s.sp]
  | .ret => [s.readTransaction s.sp]
  | .ldi _ _ | .prn _ | .hlt | .add _ _ | .mul _ _ => []

/-- The transactions of the step a running machine takes under an opcode map, in order (R50, R146): the opcode read;
for a supported opcode the operand reads and then the stack transaction. -/
def State.transactions (s : State) (m : OpcodeMap) : List MemTransaction :=
  s.readTransaction s.pc ::
    match s.fetch.instr m with
    | none => []
    | some i => s.fetch.operandTransactions ++ s.fetch.stackTransactions i

/-- The byte an instruction puts on the output port, if any (R148). -/
def State.output (s : State) : Instr → Option Byte
  | .prn ra => some (s.reg ra)
  | .ldi _ _ | .hlt | .add _ _ | .mul _ _ | .push _ | .pop _ | .call _ | .ret => none

/-- The load request of CALL and RET to `pc_controller` (R90, R145). -/
def State.loadRequest (s : State) : Instr → Option Byte
  | .call ra => some ((s.push State.returnAddress).reg ra)
  | .ret => some (s.load s.sp)
  | .ldi _ _ | .prn _ | .hlt | .add _ _ | .mul _ _ | .push _ | .pop _ => none

/-- The block `pc_controller`: hold on a fault, the loaded value on a request, else the next address in order
(R90, R145). -/
def pcController (pc ir : Byte) (load : Option Byte) (fault : Bool) : Byte :=
  if fault then pc else load.getD (nextInOrder pc ir)

end Sys2Proof.Machine
end

