-- ==== Sys2Proof/Machine/Launch.lean ====
section
/-! DEFINITION. The host interface (R149 to R152, R183): load, start, and the status the block shows. Reset is
`State.reset`. These are the host's actions, not steps of the machine. -/

namespace Sys2Proof.Machine

/-- The machine has taken no step and has not been started since reset (R181). A step leaves an opcode's byte in
`IR`, or a fault record: a machine that has stopped holds HLT's 0x01 in `IR` or has a record, and before the start
`IR` is 0x00 and there is none (R33, R102, R163; log 8). -/
def State.beforeStart (s : State) : Bool := !s.running && s.fault.isNone && s.ir == 0x00#8

/-- The Program Loader (R74, R75, R150): the image's bytes at increasing addresses from 0 and nothing else, and
only before `start`; an image of more than 256 bytes is a failed load. -/
def State.loadImage (s : State) (image : List Byte) : Option State :=
  if s.beforeStart && imageOk image then some { s with mem := Memory.storeFrom s.mem Config.loadBase image }
  else none

/-- `start` (R151): `running <- 1`, once per reset: a machine that runs or has run cannot be started (R181). -/
def State.start (s : State) : Option State :=
  if s.beforeStart then some { s with running := true } else none

/-- The launch state of an image: reset, load, start (R181, R183). -/
def launch (image : List Byte) : Option State := (State.reset.loadImage image).bind State.start

/-- The status outputs of R152. `faultIr` and `faultPc` are meaningful for `UnsupportedOpcode` and absent
otherwise, where the spec gives them no value (DESIGN CHOICE, log 17). -/
structure Status where
  running : Bool
  faultKind : Nat
  faultIr : Option Byte
  faultPc : Option Byte
  deriving DecidableEq, Repr

/-- `fault_kind`: 0 none, 1 UnsupportedOpcode, 2 UnsupportedALUOperation (R164). -/
def faultKind : Option FatalError → Nat
  | none => 0
  | some (.unsupportedOpcode _ _) => 1
  | some (.unsupportedALUOperation _) => 2

/-- `fault_ir` where there is one (R152). -/
def faultIr : Option FatalError → Option Byte
  | some (.unsupportedOpcode ir _) => some ir
  | none | some (.unsupportedALUOperation _) => none

/-- `fault_pc` where there is one (R152). -/
def faultPc : Option FatalError → Option Byte
  | some (.unsupportedOpcode _ pc) => some pc
  | none | some (.unsupportedALUOperation _) => none

/-- What the block shows of its state (R152). -/
def State.status (s : State) : Status where
  running := s.running
  faultKind := faultKind s.fault
  faultIr := faultIr s.fault
  faultPc := faultPc s.fault

end Sys2Proof.Machine
end

