-- ==== Sys2Proof/Machine/Run.lean ====
section
/-! DEFINITION. The run (R87, R12, R190): the iteration of the step from a launch state until `running` is 0, its
end, and the run that has none. -/

namespace Sys2Proof.Machine

/-- The state of the run from `s` after `n` steps, or after its last step if it ended before: a state with no step
stays (R87). `n` is how far one looks and ends nothing (R12). -/
def runFor (m : OpcodeMap) : Nat → State → State
  | 0, s => s
  | n + 1, s =>
    match stepWith m s with
    | .next t => runFor m n t
    | .fault _ => s
    | .refused _ => s

/-- The run of an image ends in the state `t` (R87). -/
def RunEndsIn (m : OpcodeMap) (image : List Byte) (t : State) : Prop :=
  ∃ s n, launch image = some s ∧ runFor m n s = t ∧ t.running = false

/-- The run of an image does not end (R12, R87, R190). -/
def RunsForever (m : OpcodeMap) (image : List Byte) : Prop :=
  ∃ s, launch image = some s ∧ ∀ n, (runFor m n s).running = true

end Sys2Proof.Machine
end

