-- ==== Sys2Proof/Safety.lean ====
section
/-! DEFINITION. How a run ends (R87, R12), and the invariant of the machine. -/

namespace Sys2Proof.Machine

/-- The normal end of a run: HLT was executed (R87). A machine that was never started has not ended (R181). -/
abbrev State.EndedNormally (s : State) : Prop :=
  s.running = false ∧ s.fault = none ∧ s.beforeStart = false

/-- The end of a run by a fatal error (R87). -/
abbrev State.EndedFatally (s : State) : Prop := s.running = false ∧ s.fault ≠ none

/-- The fault record says what stopped the machine (R26, R82, R88, R163): with a record the machine is stopped,
`IR` is the unsupported byte, `pc` is its address and memory still holds it there; the ALU's error is never
recorded (R114). -/
def State.FaultRecordTrue (s : State) (m : OpcodeMap) : Prop :=
  match s.fault with
  | none => True
  | some (.unsupportedOpcode ir pc) =>
    s.running = false ∧ s.ir = ir ∧ s.pc = pc ∧ s.load pc = ir ∧ decodeOpcode m ir = none
  | some (.unsupportedALUOperation _) => False

/-- The invariant under an opcode map: memory is in its canonical form and the fault record is true. -/
def State.InvWith (s : State) (m : OpcodeMap) : Prop := Memory.wf s.mem = true ∧ s.FaultRecordTrue m

/-- The invariant of this machine. -/
def State.Inv (s : State) : Prop := s.InvWith opcodes

/-- Every byte of memory reads in `t` as it reads in `s`. -/
def State.SameMemory (s t : State) : Prop := ∀ a : Byte, Memory.read t.mem a = Memory.read s.mem a

/-- `IR`, the run flag, the fault record and the output are in `t` as they are in `s`. -/
def State.SameControl (s t : State) : Prop :=
  t.ir = s.ir ∧ t.running = s.running ∧ t.fault = s.fault ∧ t.out = s.out

/-- The registers an instruction may write (R22). -/
def writtenRegs : Instr → List RegNum
  | .ldi ra _ => [ra]
  | .add ra _ => [ra]
  | .mul ra _ => [ra]
  | .push _ => [Config.spIndex]
  | .pop ra => [ra, Config.spIndex]
  | .call _ => [Config.spIndex]
  | .ret => [Config.spIndex]
  | .prn _ | .hlt => []

/-- The registers an instruction reads (R22). -/
def readRegs : Instr → List RegNum
  | .prn ra => [ra]
  | .add ra rb => [ra, rb]
  | .mul ra rb => [ra, rb]
  | .push ra => [ra, Config.spIndex]
  | .pop _ => [Config.spIndex]
  | .call ra => [ra, Config.spIndex]
  | .ret => [Config.spIndex]
  | .ldi _ _ | .hlt => []

end Sys2Proof.Machine
end

