-- ==== Sys2Proof/Certificates/Slice0/Obligations.lean ====
section
/-! DEFINITION. The statements for the provers, after the numbered rules of spec/.

Two conventions. (1) A statement about one instruction's meaning is about `exec` on a state whose `IR` holds that
instruction's opcode byte under some valid opcode map (R65, R66): the state the fetch hands on. It holds for every
such map, so it does not rest on the five opcode bytes the spec takes from general knowledge (D4, log 1).
(2) Where a statement needs wrapping arithmetic it rests on the spec's own decisions D1 (log 4) or D2 (log 5);
its docstring says so, and its basis is then 'derived'. -/

open Sys2Proof Sys2Proof.Machine

/-! ### Encoding -/

/-- 30_encoding.md sections 2 and 3: decoding the bytes of any instruction, under any valid opcode map and with any
bytes after it, gives the instruction and those bytes. -/
def Obligations.DecodeOfEncodeIsIdentity : Prop :=
  ∀ m : OpcodeMap, m.Valid → ∀ (i : Instr) (rest : List Byte), decode m (encode m i ++ rest) = .ok (i, rest)

/-- The other direction (R64's formats, R71's reserved bits, which the hardware ignores by the spec's decision D3,
log 6): whatever decodes is the instruction's opcode byte, then as many operand bytes as that byte says, then
the bytes left over; and the operand bytes are the encoder's once their reserved bits are cleared. -/
def Obligations.DecodedBytesAreTheEncodingUpToReservedBits : Prop :=
  ∀ m : OpcodeMap, m.Valid → ∀ (bs : List Byte) (i : Instr) (rest : List Byte), decode m bs = .ok (i, rest) →
    ∃ operands : List Byte, bs = m.byte i.kind :: (operands ++ rest) ∧
      operands.length = nops (m.byte i.kind) ∧ clearReserved i.kind.format operands = operandBytes i

/-- 30_encoding.md section 1: bits 7:6 of a supported opcode are the number of its operand bytes, and bit 4 is set
exactly for the instructions whose handler sets `pc`. 40_engine_cycle.md section 1: the advance relies on those two
fields of the latched byte and on nothing else: whatever byte `IR` holds, an instruction whose handler does not set
`pc` moves it as that byte says, modulo 256 by the spec's decision D2 (log 5). -/
def Obligations.OpcodeFieldsMatchTheHandler : Prop :=
  (∀ m : OpcodeMap, m.Valid → ∀ i : Instr,
    (operandBytes i).length = nops (m.byte i.kind) ∧
      (setsPc (m.byte i.kind) = true ↔ (∃ ra, i = .call ra) ∨ i = .ret)) ∧
  ∀ (i : Instr) (s : State), (∀ ra, i ≠ .call ra) → i ≠ .ret → ∃ t, exec i s = .next t ∧
    t.pc = if setsPc s.ir then s.pc else s.pc + BitVec.ofNat 8 (nops s.ir + 1)

/-- 30_encoding.md section 4 with the spec's decision D5: under every valid opcode map 247 of the 256 byte values
are no opcode. -/
def Obligations.ThereAre247UnsupportedOpcodes : Prop :=
  ∀ m : OpcodeMap, m.Valid →
    ((List.range 256).filter fun n => (decodeOpcode m (BitVec.ofNat 8 n)).isNone).length = 247

/-- 40_engine_cycle.md section 2: `opcode_decoder` is supported exactly on the nine opcode bytes, matched in all
eight bits, gives the kind of the byte, passes on bits 7:6 and bit 4, and yields an ALU tag for ADD and MUL alone. That the kind and the tag are
absent where the spec calls them not meaningful is the model's choice (DESIGN CHOICE, log 17). -/
def Obligations.OpcodeDecoderMatchesTheWholeByte : Prop :=
  ∀ m : OpcodeMap, m.Valid → ∀ ir : Byte,
    ((opcodeDecoder m ir).supported = true ↔ ∃ k, ir = m.byte k) ∧
    (∀ k, (opcodeDecoder m ir).kind = some k ↔ ir = m.byte k) ∧
    (opcodeDecoder m ir).operandCount = ir.toNat / 64 ∧
    (opcodeDecoder m ir).setsPc = ir.getLsbD 4 ∧
    ((opcodeDecoder m ir).aluOp = some .add ↔ ir = m.add) ∧
    ((opcodeDecoder m ir).aluOp = some .mul ↔ ir = m.mul) ∧
    ∀ n, (opcodeDecoder m ir).aluOp ≠ some (.other n)

/-- The words the source prints, bit by bit (95_test_vectors.md S5), and one word with reserved bits set (L3). -/
def Obligations.SourceWordsDecodeAsPrinted : Prop :=
  decode opcodes [0b10000010#8, 0b00000000#8, 0b00001000#8] = .ok (.ldi 0 8#8, []) ∧
  decode opcodes [0b10000010#8, 0b00000001#8, 0b00001001#8] = .ok (.ldi 1 9#8, []) ∧
  decode opcodes [0b01000111#8, 0b00000000#8] = .ok (.prn 0, []) ∧
  decode opcodes [0b00000001#8] = .ok (.hlt, []) ∧
  decode opcodes [0b10100010#8, 0b00000000#8, 0b00000001#8] = .ok (.mul 0 1, []) ∧
  decode opcodes [0b10000010#8, 0b00001111#8, 0b00010000#8] = .ok (.ldi 7 16#8, [])

/-! ### Memory -/

/-- R49: a read returns the value of the most recent write to the same address, or what the memory held before all
the writes if none was to that address. -/
def Obligations.ReadReturnsTheLatestWrite : Prop :=
  ∀ (m : Memory) (writes : List (Byte × Byte)) (a : Byte), Memory.wf m = true →
    Memory.read (writes.foldl (fun m w => Memory.write m w.1 w.2) m) a =
      ((writes.reverse.find? fun w => w.1 == a).map Prod.snd).getD (Memory.read m a)

/-- The canonical form of memory (log 9): two memories in it that read alike everywhere are the same data. -/
def Obligations.MemoriesThatReadAlikeAreEqual : Prop :=
  ∀ m m' : Memory, Memory.wf m = true → Memory.wf m' = true →
    (∀ a : Byte, Memory.read m a = Memory.read m' a) → m = m'

/-! ### Reset and launch -/

/-- The "After reset" column of 10_state.md section 6. Memory, R0 to R7 and `pc` are the source's; `IR`, `running`,
`fault` and `out` are the spec's own decisions D8, D10 and D11 (logs 15, 10, 11). -/
def Obligations.ResetLeavesTheTabledValues : Prop :=
  (∀ a : Byte, Memory.read State.reset.mem a = 0x00#8) ∧ (∀ r : RegNum, r ≠ 7 → State.reset.reg r = 0x00#8) ∧
  State.reset.reg 7 = 0xF4#8 ∧ State.reset.pc = 0x00#8 ∧ State.reset.ir = 0x00#8 ∧
  State.reset.running = false ∧ State.reset.fault = none ∧ State.reset.out = []

/-- 70_reset_and_hazards.md section 1, the launch state of an image (with the spec's decisions D8, D13 and D20, logs 8
and 15):
a total function of an image of at most 256 bytes, and no launch state for a longer one. -/
def Obligations.LaunchStateIsTheImageFromAddressZero : Prop :=
  ∀ image : List Byte,
    (image.length ≤ 256 → ∃ s, launch image = some s ∧
      (∀ a : Byte, Memory.read s.mem a = image.getD a.toNat 0x00#8) ∧
      (∀ r : RegNum, r ≠ 7 → s.reg r = 0x00#8) ∧ s.reg 7 = 0xF4#8 ∧ s.pc = 0x00#8 ∧ s.ir = 0x00#8 ∧
      s.running = true ∧ s.fault = none ∧ s.out = []) ∧
    (256 < image.length → launch image = none)

/-- The empty image is launched and its run is one step, an `UnsupportedOpcode(0x00, 0x00)` (70_reset_and_hazards.md
section 1, the spec's decision D20). -/
def Obligations.EmptyImageRunsOneStep : Prop :=
  ∃ s t, launch [] = some s ∧ step s = .next t ∧ t.fault = some (.unsupportedOpcode 0x00#8 0x00#8) ∧
    t.running = false ∧ t.pc = 0x00#8 ∧ step t = .fault .notRunning

/-- The reset state meets the invariant. -/
def Obligations.ResetMeetsTheInvariant : Prop := State.reset.Inv

/-- Every launch state meets the invariant. -/
def Obligations.LaunchMeetsTheInvariant : Prop :=
  ∀ (image : List Byte) (s : State), launch image = some s → s.Inv

/-! ### The step -/

/-- The step runs the instruction its bytes decode to (40_engine_cycle.md section 1): when the machine runs and the
bytes at `pc`, `pc +8 1`, `pc +8 2` begin with an instruction, the step is that instruction's meaning on the state
with the opcode byte latched in `IR`. The meaning itself advances `pc`. -/
def Obligations.StepRunsTheDecodedInstruction : Prop :=
  ∀ (s : State) (i : Instr) (rest : List Byte), s.running = true →
    decode opcodes [Memory.read s.mem s.pc, Memory.read s.mem (s.pc + 1#8), Memory.read s.mem (s.pc + 2#8)] =
      .ok (i, rest) →
    step s = exec i { s with ir := Memory.read s.mem s.pc }

/-- A machine has a step exactly while it runs; without one the answer is the stop `notRunning` (log 7); and no step
is ever refused (40_engine_cycle.md section 1). -/
def Obligations.StepsExactlyWhileRunning : Prop :=
  ∀ s : State, ((∃ t, step s = .next t) ↔ s.running = true) ∧
    (s.running = false → step s = .fault .notRunning) ∧ ∀ r, step s ≠ .refused r

/-- No handler can fail (40_engine_cycle.md section 1): every instruction completes on every state. -/
def Obligations.EveryInstructionCompletes : Prop :=
  ∀ (i : Instr) (s : State), ∃ t, exec i s = .next t

/-- R81: the fetch latches the byte at `pc` into `IR` and leaves `pc`, and everything else, alone; and after every
step, whether it executed an instruction or ended in a fatal error, `IR` holds the byte fetched. -/
def Obligations.FetchLatchesTheByteAtPc : Prop :=
  (∀ s : State, s.fetch = { s with ir := Memory.read s.mem s.pc }) ∧
  ∀ s t : State, step s = .next t → t.ir = Memory.read s.mem s.pc

/-- 40_engine_cycle.md section 1: a fetched byte that is no opcode is the fatal error `UnsupportedOpcode(IR, pc)`: the
record is written, the machine stops, and apart from the latched `IR` nothing else changes (the record, the cleared
run flag and the unchanged `pc` by the spec's decision D11, log 11; that a record already there, which no run has in
a running machine, is replaced is the model's choice, DESIGN CHOICE, log 19); for a fetched opcode byte its handler
runs. -/
def Obligations.DecodeDispatchesOrRecordsTheError : Prop :=
  ∀ s : State, s.running = true →
    ((∀ k, opcodes.byte k ≠ Memory.read s.mem s.pc) →
      step s = .next { s with
        ir := Memory.read s.mem s.pc
        fault := some (.unsupportedOpcode (Memory.read s.mem s.pc) s.pc)
        running := false }) ∧
    ∀ k, opcodes.byte k = Memory.read s.mem s.pc →
      ∃ i : Instr, i.kind = k ∧ step s = exec i { s with ir := Memory.read s.mem s.pc }

/-- The advance (40_engine_cycle.md sections 1 and 3): an opcode with bit 4 clear and `n` operand bytes leaves `pc`
at its old value plus `n + 1`, without a wrap when that is below 256 and modulo 256 otherwise (the spec's decision
D2, log 5); that is 3 for LDI, ADD, MUL, 2 for PRN, PUSH, POP and 1 for HLT. -/
def Obligations.PcAdvancesByOperandCountPlusOne : Prop :=
  ∀ (s : State) (k : OpKind), s.running = true → opcodes.byte k = Memory.read s.mem s.pc →
    setsPc (Memory.read s.mem s.pc) = false →
    ∃ t, step s = .next t ∧
      t.pc.toNat = (s.pc.toNat + (Memory.read s.mem s.pc).toNat / 64 + 1) % 256 ∧
      (k = .ldi ∨ k = .add ∨ k = .mul → t.pc = s.pc + 3#8) ∧
      (k = .prn ∨ k = .push ∨ k = .pop → t.pc = s.pc + 2#8) ∧
      (k = .hlt → t.pc = s.pc + 1#8)

/-- `pc_controller` (40_engine_cycle.md section 2): after every step `pc` is what the controller selects from the old
`pc`, the fetched byte, the handler's load request and the fault, under every valid opcode map (for `opcodes` the step
is this machine's). The selection wraps by D2 (log 5). -/
def Obligations.NextPcIsWhatThePcControllerSelects : Prop :=
  ∀ m : OpcodeMap, m.Valid → ∀ s t : State, stepWith m s = .next t →
    (∀ i, s.fetch.instr m = some i →
      t.pc = pcController s.pc (Memory.read s.mem s.pc) (s.fetch.loadRequest i) false) ∧
    (s.fetch.instr m = none → t.pc = pcController s.pc (Memory.read s.mem s.pc) none true)

/-- 10_state.md section 3: a step is taken only while `running` is 1; a step clears it exactly when it executes HLT or
ends in the fatal error of an unsupported opcode, and nothing in the core sets it; either fatal error clears it (the
spec's decision D11, log 11; over every ALU tag the model has, log 3); the host's start, where it can be given (the
guard is the model's choice, DESIGN CHOICE, log 8), sets it. -/
def Obligations.RunFlagIsClearedOnlyByHaltOrFatalError : Prop :=
  (∀ s t : State, step s = .next t → s.running = true ∧
    (t.running = false ↔ Memory.read s.mem s.pc = opcodes.hlt ∨ ∀ k, opcodes.byte k ≠ Memory.read s.mem s.pc)) ∧
  (∀ (s : State) (e : FatalError), (s.fatal e).running = false) ∧
  ∀ s t : State, s.start = some t → s.running = false ∧ t.running = true

/-- R88: `running = 1` implies `fault = none`: at launch, and after every step from a state of which it holds; a step
that records an error clears `running`; and the converse fails after HLT. -/
def Obligations.RunningImpliesNoFault : Prop :=
  (∀ (image : List Byte) (s : State), launch image = some s → s.running = true ∧ s.fault = none) ∧
  (∀ s t : State, (s.running = true → s.fault = none) → step s = .next t →
    (t.running = true → t.fault = none) ∧ (t.fault ≠ none → t.running = false)) ∧
  ∀ s : State, s.running = true → s.fault = none → Memory.read s.mem s.pc = opcodes.hlt →
    ∃ t, step s = .next t ∧ t.running = false ∧ t.fault = none

/-- The invariant is kept by every step from every state that meets it, under every opcode map and so by this
machine's step: memory stays in canonical form, and a fault record is true of the machine (it is stopped, `IR` and
`pc` are the recorded ones, memory holds that byte there, and that byte is no opcode), and is never the ALU's error. -/
def Obligations.EveryStepKeepsTheInvariant : Prop :=
  (∀ (m : OpcodeMap) (s t : State), s.InvWith m → stepWith m s = .next t → t.InvWith m) ∧
  ∀ s t : State, s.Inv → step s = .next t → t.Inv

/-- The two ends of a run (40_engine_cycle.md section 1; the record by the spec's decision D11, log 11): a step of a
machine that meets the invariant and stops after it either executed HLT and left no record, the normal end, or
fetched a byte that is no opcode and left a record. That a machine that has ended is told from one never started is
log 8. -/
def Obligations.RunEndsByHaltOrByAFatalError : Prop :=
  ∀ s t : State, s.Inv → step s = .next t → t.running = false →
    (Memory.read s.mem s.pc = opcodes.hlt ∧ t.EndedNormally) ∨
      ((∀ k, opcodes.byte k ≠ Memory.read s.mem s.pc) ∧ t.EndedFatally)

/-- A recorded fatal error is final (60_exceptions.md section 1, the spec's decision D11, log 11): in a state that
meets the invariant a record means that the machine has no step. -/
def Obligations.RecordedFaultIsFinal : Prop :=
  ∀ (s : State) (e : FatalError), s.Inv → s.fault = some e → step s = .fault .notRunning

/-- 60_exceptions.md section 1, 42_alu.md section 1: the ALU invoked with a tag outside {ADD, MUL} records that tag,
stops the machine and changes nothing else (the record by the spec's decision D11, log 11; such tags exist in the
model by its own choice, DESIGN CHOICE, log 3, where the spec's D17 keeps the tag abstract); and no step of any
program records it. -/
def Obligations.UnsupportedAluTagIsFatalAndNeverFromAProgram : Prop :=
  (∀ (tag : AluTag) (ra rb : RegNum) (s : State), tag ≠ .add → tag ≠ .mul →
    aluApply tag ra rb s =
      .next { s with fault := some (.unsupportedALUOperation tag), running := false }) ∧
  ∀ (s t : State) (tag : AluTag), step s = .next t → t.fault = some (.unsupportedALUOperation tag) →
    s.fault = some (.unsupportedALUOperation tag)

/-- Output (10_state.md section 3, the spec's decision D10, log 10): a step that fetched PRN's opcode appends the
register its operand byte selects, and no other step changes the output. -/
def Obligations.OnlyPrnAppendsToTheOutput : Prop :=
  ∀ s t : State, step s = .next t →
    (Memory.read s.mem s.pc = opcodes.prn →
      t.out = s.out ++ [s.reg (regOf (Memory.read s.mem (s.pc + 1#8)))]) ∧
    (Memory.read s.mem s.pc ≠ opcodes.prn → t.out = s.out)

/-- Nothing reads the output back (10_state.md section 3): a step appends the same bytes and otherwise does the same
whatever has been output before. -/
def Obligations.OutputIsNeverReadBack : Prop :=
  ∀ s t : State, step s = .next t →
    ∃ emitted : List Byte, t.out = s.out ++ emitted ∧
      ∀ o : List Byte, step { s with out := o } = .next { t with out := o ++ emitted }

/-- What `IR` holds before a step does not matter (10_state.md section 6; the reset value of `IR` is the spec's
decision D8, log 15, and no statement rests on it). -/
def Obligations.OldInstructionRegisterIsUnobservable : Prop :=
  ∀ (s : State) (v : Byte), step { s with ir := v } = step s

/-- The memory port (20_memory.md sections 1 and 3, 50_blocks_and_interfaces.md section 2; the operands first by the
spec's decision D6, log 12): a step's transactions applied in order give its memory; at most one is a write; every
read carries the byte the memory held; the first is the opcode read, then come the operand reads, as many as the
fetched byte says; and an unsupported opcode has the first alone. It holds under every valid opcode map (for `opcodes`
the step is this machine's). -/
def Obligations.MemoryIsWhatTheTransactionsLeave : Prop :=
  ∀ m : OpcodeMap, m.Valid → ∀ s t : State, stepWith m s = .next t →
    t.mem = (s.transactions m).foldl MemTransaction.apply s.mem ∧
    ((s.transactions m).filter MemTransaction.isWrite).length ≤ 1 ∧
    (∀ a v : Byte, .read a v ∈ s.transactions m → v = Memory.read s.mem a) ∧
    ((∀ k, m.byte k ≠ Memory.read s.mem s.pc) →
      s.transactions m = [.read s.pc (Memory.read s.mem s.pc)]) ∧
    ∀ k, m.byte k = Memory.read s.mem s.pc →
      (s.transactions m).take (1 + nops (Memory.read s.mem s.pc)) =
        ([s.pc, s.pc + 1#8, s.pc + 2#8].take (1 + nops (Memory.read s.mem s.pc))).map
          fun a => .read a (Memory.read s.mem a)

/-- The frame of memory over every step (20_memory.md section 1): only PUSH and CALL write, and only at the
decremented stack pointer. -/
def Obligations.MemoryChangesOnlyAtThePushAddress : Prop :=
  ∀ (s t : State) (a : Byte), step s = .next t →
    (a ≠ s.pushAddr ∨ (Memory.read s.mem s.pc ≠ opcodes.push ∧ Memory.read s.mem s.pc ≠ opcodes.call)) →
    Memory.read t.mem a = Memory.read s.mem a

/-- The frame of the registers (10_state.md section 1): LDI, ADD and MUL may change `x[ra]` alone, POP `x[ra]` and
R7, PUSH, CALL and RET R7 alone, PRN and HLT none. -/
def Obligations.OnlyTheNamedRegistersChange : Prop :=
  ∀ (i : Instr) (s t : State) (r : RegNum), exec i s = .next t → r ∉ writtenRegs i → t.reg r = s.reg r

/-- The other half of the register rule (10_state.md section 1): an instruction reads no other register than the ones
named, so with another value in a register it does not read it does the same everywhere else; and that register
then holds that value, or, where the instruction writes it, what the instruction writes. -/
def Obligations.OnlyTheNamedRegistersAreRead : Prop :=
  ∀ (i : Instr) (s t : State) (r : RegNum) (v : Byte), r ∉ readRegs i → exec i s = .next t →
    ∃ u, exec i (s.setReg r v) = .next u ∧ (∀ q, q ≠ r → u.reg q = t.reg q) ∧
      (r ∈ writtenRegs i → u.reg r = t.reg r) ∧ (r ∉ writtenRegs i → u.reg r = v) ∧
      u.pc = t.pc ∧ t.SameMemory u ∧ t.SameControl u

/-- The status outputs after an unsupported opcode (50_blocks_and_interfaces.md section 3, 60_exceptions.md section 1;
the code 1 is the spec's decision D11, log 11). -/
def Obligations.StatusShowsTheFatalError : Prop :=
  ∀ s : State, s.running = true → (∀ k, opcodes.byte k ≠ Memory.read s.mem s.pc) →
    ∃ t, step s = .next t ∧ t.status.running = false ∧ t.status.faultKind = 1 ∧
      t.status.faultIr = some (Memory.read s.mem s.pc) ∧ t.status.faultPc = some s.pc

/-- The opcode map is an argument of the machine (R66's parameters, the spec's decision D4, log 1): under every valid
map a running machine's step is the meaning of the instruction that the map's decoder reads at `pc`, on the state with
the opcode byte latched, or, on a byte the map does not have, the fatal error (D11, log 11; log 19); a stopped one has
no step (log 7); and this machine's step is the one of the spec's default bytes. -/
def Obligations.EveryValidOpcodeMapHasItsStep : Prop :=
  (∀ m : OpcodeMap, m.Valid → ∀ s : State,
    (s.running = true → ∀ (i : Instr) (rest : List Byte),
      decode m [Memory.read s.mem s.pc, Memory.read s.mem (s.pc + 1#8), Memory.read s.mem (s.pc + 2#8)] =
        .ok (i, rest) →
      stepWith m s = exec i { s with ir := Memory.read s.mem s.pc }) ∧
    (s.running = true → (∀ k, m.byte k ≠ Memory.read s.mem s.pc) →
      stepWith m s = .next { s with
        ir := Memory.read s.mem s.pc
        fault := some (.unsupportedOpcode (Memory.read s.mem s.pc) s.pc)
        running := false }) ∧
    (s.running = false → stepWith m s = .fault .notRunning)) ∧
  ∀ s : State, step s = stepWith opcodes s

/-! ### The run -/

/-- The run of an image (40_engine_cycle.md section 1; the state kept after the end by the spec's decision D12, log 18;
the record by D11, log 11): it does not end exactly when it has no end state; it has at most one end state; once
stopped it stays; and at its end either the last byte fetched is HLT's opcode and there is no fault, or it is no
opcode, it stands at the `pc` still held, and the fault records both. -/
def Obligations.RunEndsOnceInOneOfTwoWaysOrNever : Prop :=
  ∀ (m : OpcodeMap) (image : List Byte) (s : State), launch image = some s →
    (RunsForever m image ↔ ¬ ∃ t, RunEndsIn m image t) ∧
    (∀ t u, RunEndsIn m image t → RunEndsIn m image u → t = u) ∧
    (∀ n k, (runFor m n s).running = false → runFor m (n + k) s = runFor m n s) ∧
    ∀ t, RunEndsIn m image t →
      (t.fault = none ∧ t.ir = m.hlt) ∨
        (t.fault = some (.unsupportedOpcode t.ir t.pc) ∧ Memory.read t.mem t.pc = t.ir ∧ ∀ k, m.byte k ≠ t.ir)

/-- Non-termination is possible (70_reset_and_hazards.md section 3): under every valid opcode map some image has a
run that does not end. Along such a run the stack pointer wraps by D2 (log 5). -/
def Obligations.SomeRunDoesNotEnd : Prop :=
  ∀ m : OpcodeMap, m.Valid → ∃ image : List Byte, RunsForever m image

/-- The life of the block is reset, load, start, run, end (70_reset_and_hazards.md section 1; `IR` at reset by the
spec's decision D8, log 15; the guard, DESIGN CHOICE, log 8): the reset state takes every image of at most 256 bytes
and the loaded state a start; and from the start on, while the run goes on and after it has ended, neither a load nor
a start can be given, so there is no path from the end back to a run. -/
def Obligations.NoPathFromTheEndBackToARun : Prop :=
  (∀ image : List Byte, image.length ≤ 256 →
    ∃ l s, State.reset.loadImage image = some l ∧ l.start = some s ∧ launch image = some s) ∧
  ∀ m : OpcodeMap, m.Valid → ∀ (image : List Byte) (s : State) (n : Nat), launch image = some s →
    (runFor m n s).start = none ∧ ∀ image' : List Byte, (runFor m n s).loadImage image' = none

/-- Every state of every launched run meets the invariant, under every opcode map. -/
def Obligations.EveryLaunchedRunMeetsTheInvariant : Prop :=
  ∀ (m : OpcodeMap) (image : List Byte) (s : State) (n : Nat), launch image = some s → (runFor m n s).InvWith m

/-! ### LDI, PRN, HLT -/

/-- LDI (41_data_and_system.md): `x[ra]` receives the immediate, `pc` moves by 3 (modulo 256 by D2, log 5), nothing
else changes; its bytes are `10000010 00000rrr vvvvvvvv`. -/
def Obligations.LdiLoadsTheImmediate : Prop :=
  ∀ (m : OpcodeMap) (ra : RegNum) (imm : Byte) (s : State), m.Valid → s.ir = m.ldi →
    encode m (.ldi ra imm) = [0b10000010#8, BitVec.ofNat 8 ra.val, imm] ∧
    ∃ t, exec (.ldi ra imm) s = .next t ∧ t.reg ra = imm ∧ (∀ r, r ≠ ra → t.reg r = s.reg r) ∧
      t.pc = s.pc + 3#8 ∧ s.SameMemory t ∧ s.SameControl t

/-- PRN (41_data_and_system.md): the register's value is appended to the output (the spec's decision D10, log 10),
`pc` moves by 2 (D2, log 5), nothing else changes; its bytes are `01000111 00000rrr`. -/
def Obligations.PrnEmitsTheRegister : Prop :=
  ∀ (m : OpcodeMap) (ra : RegNum) (s : State), m.Valid → s.ir = m.prn →
    encode m (.prn ra) = [0b01000111#8, BitVec.ofNat 8 ra.val] ∧
    ∃ t, exec (.prn ra) s = .next t ∧ t.out = s.out ++ [s.reg ra] ∧ (∀ r, t.reg r = s.reg r) ∧
      t.pc = s.pc + 2#8 ∧ s.SameMemory t ∧ t.ir = s.ir ∧ t.running = s.running ∧ t.fault = s.fault

/-- HLT (41_data_and_system.md): `running` is cleared, `pc` still moves by 1 (D2, log 5), nothing else changes, and
no further step is taken; its byte is `00000001`. -/
def Obligations.HltClearsTheRunFlag : Prop :=
  ∀ (m : OpcodeMap) (s : State), m.Valid → s.ir = m.hlt →
    encode m .hlt = [0b00000001#8] ∧
    ∃ t, exec .hlt s = .next t ∧ t.running = false ∧ t.pc = s.pc + 1#8 ∧ (∀ r, t.reg r = s.reg r) ∧
      s.SameMemory t ∧ t.ir = 0x01#8 ∧ t.fault = s.fault ∧ t.out = s.out ∧ step t = .fault .notRunning

/-! ### ADD, MUL -/

/-- The ALU's results (42_alu.md section 1): the exact sum or product when it fits in a byte, else its low eight
bits (the spec's decision D1, log 4). -/
def Obligations.AluKeepsTheLowEightBits : Prop :=
  ∀ p q : Byte, ∃ sum product : Byte, alu .add p q = .ok sum ∧ alu .mul p q = .ok product ∧
    sum.toNat = (p.toNat + q.toNat) % 256 ∧ product.toNat = (p.toNat * q.toNat) % 256

/-- R115: the ALU's ADD and MUL are commutative on values; so with the registers' roles exchanged the destination
receives the same value; and the result always goes to `x[ra]`. -/
def Obligations.AluIsCommutativeOnValues : Prop :=
  (∀ p q : Byte, alu .add p q = alu .add q p ∧ alu .mul p q = alu .mul q p) ∧
  ∀ (ra rb : RegNum) (s : State),
    (∃ t u, exec (.add ra rb) s = .next t ∧ exec (.add rb ra) s = .next u ∧ t.reg ra = u.reg rb ∧
      (∀ r, r ≠ ra → t.reg r = s.reg r) ∧ ∀ r, r ≠ rb → u.reg r = s.reg r) ∧
    ∃ t u, exec (.mul ra rb) s = .next t ∧ exec (.mul rb ra) s = .next u ∧ t.reg ra = u.reg rb ∧
      (∀ r, r ≠ ra → t.reg r = s.reg r) ∧ ∀ r, r ≠ rb → u.reg r = s.reg r

/-- ADD (42_alu.md section 1): `x[ra]` receives `(x[ra] + x[rb]) mod 256` (D1, log 4), `pc` moves by 3 (D2, log 5),
nothing else changes. -/
def Obligations.AddWritesTheSum : Prop :=
  ∀ (m : OpcodeMap) (ra rb : RegNum) (s : State), m.Valid → s.ir = m.add →
    encode m (.add ra rb) = [m.add, BitVec.ofNat 8 ra.val, BitVec.ofNat 8 rb.val] ∧
    ∃ t, exec (.add ra rb) s = .next t ∧
      (t.reg ra).toNat = ((s.reg ra).toNat + (s.reg rb).toNat) % 256 ∧ (∀ r, r ≠ ra → t.reg r = s.reg r) ∧
      t.pc = s.pc + 3#8 ∧ s.SameMemory t ∧ s.SameControl t

/-- MUL (42_alu.md section 1): `x[ra]` receives `(x[ra] * x[rb]) mod 256` (D1, log 4), `pc` moves by 3 (D2, log 5),
nothing else changes; its bytes are `10100010 00000rrr 00000sss`. -/
def Obligations.MulWritesTheProduct : Prop :=
  ∀ (m : OpcodeMap) (ra rb : RegNum) (s : State), m.Valid → s.ir = m.mul →
    encode m (.mul ra rb) = [0b10100010#8, BitVec.ofNat 8 ra.val, BitVec.ofNat 8 rb.val] ∧
    ∃ t, exec (.mul ra rb) s = .next t ∧
      (t.reg ra).toNat = ((s.reg ra).toNat * (s.reg rb).toNat) % 256 ∧ (∀ r, r ≠ ra → t.reg r = s.reg r) ∧
      t.pc = s.pc + 3#8 ∧ s.SameMemory t ∧ s.SameControl t

/-! ### PUSH, POP, CALL, RET -/

/-- PUSH (43_stack.md section 2): R7 is decremented, then the register is stored at the new R7; for PUSH R7 that is
the decremented R7 itself (the spec's decision D7, log 13). `pc` moves by 2; R7 and `pc` wrap by D2 (log 5). Every
other byte of memory, register and control field is as before. -/
def Obligations.PushStoresAtTheDecrementedPointer : Prop :=
  ∀ (m : OpcodeMap) (ra : RegNum) (s : State), m.Valid → s.ir = m.push →
    encode m (.push ra) = [m.push, BitVec.ofNat 8 ra.val] ∧
    ∃ t, exec (.push ra) s = .next t ∧ t.reg 7 = s.reg 7 - 1#8 ∧ (∀ r, r ≠ 7 → t.reg r = s.reg r) ∧
      t.pc = s.pc + 2#8 ∧
      (Memory.wf s.mem = true → Memory.read t.mem (s.reg 7 - 1#8) = if ra = 7 then s.reg 7 - 1#8 else s.reg ra) ∧
      (∀ a, a = s.pushAddr → ∀ b, b ≠ a → Memory.read t.mem b = Memory.read s.mem b) ∧ s.SameControl t

/-- POP (43_stack.md section 2): the register receives the byte at R7, then R7 is incremented; for POP R7 the result
is the byte plus 1 (the spec's decision D7, log 13). `pc` moves by 2; R7 and `pc` wrap by D2 (log 5). -/
def Obligations.PopLoadsAndIncrementsThePointer : Prop :=
  ∀ (m : OpcodeMap) (ra : RegNum) (s : State), m.Valid → s.ir = m.pop →
    encode m (.pop ra) = [m.pop, BitVec.ofNat 8 ra.val] ∧
    ∃ t, exec (.pop ra) s = .next t ∧
      (ra ≠ 7 → t.reg ra = Memory.read s.mem (s.reg 7) ∧ t.reg 7 = s.reg 7 + 1#8) ∧
      (ra = 7 → t.reg 7 = Memory.read s.mem (s.reg 7) + 1#8) ∧
      (∀ r, r ≠ ra → r ≠ 7 → t.reg r = s.reg r) ∧ t.pc = s.pc + 2#8 ∧ s.SameMemory t ∧ s.SameControl t

/-- CALL (44_call_return.md): R7 is decremented, the address `pc + 2` is stored at the new R7, and `pc` receives the
register; for CALL R7 that is the decremented R7 (the spec's decision D7, log 13). R7 and the return address wrap
by D2 (log 5). -/
def Obligations.CallPushesTheReturnAddressAndJumps : Prop :=
  ∀ (m : OpcodeMap) (ra : RegNum) (s : State), m.Valid → s.ir = m.call →
    encode m (.call ra) = [m.call, BitVec.ofNat 8 ra.val] ∧
    ∃ t, exec (.call ra) s = .next t ∧ t.reg 7 = s.reg 7 - 1#8 ∧ (∀ r, r ≠ 7 → t.reg r = s.reg r) ∧
      t.pc = (if ra = 7 then s.reg 7 - 1#8 else s.reg ra) ∧
      (Memory.wf s.mem = true → Memory.read t.mem (s.reg 7 - 1#8) = s.pc + 2#8) ∧
      (∀ a, a = s.pushAddr → ∀ b, b ≠ a → Memory.read t.mem b = Memory.read s.mem b) ∧ s.SameControl t

/-- RET (44_call_return.md): `pc` receives the byte at R7, then R7 is incremented (modulo 256 by D2, log 5); nothing
else changes. -/
def Obligations.RetPopsIntoPc : Prop :=
  ∀ (m : OpcodeMap) (s : State), m.Valid → s.ir = m.ret →
    encode m .ret = [m.ret] ∧
    ∃ t, exec .ret s = .next t ∧ t.pc = Memory.read s.mem (s.reg 7) ∧ t.reg 7 = s.reg 7 + 1#8 ∧
      (∀ r, r ≠ 7 → t.reg r = s.reg r) ∧ s.SameMemory t ∧ s.SameControl t

/-- PUSH then POP of the same register (43_stack.md section 3; with R7 by D7, wrapping by D2): every register is as
before, `pc` has moved by 4, and only the one stack cell may have changed. `s'.setIr` is the fetch of the POP. -/
def Obligations.PushThenPopRestoresTheRegisters : Prop :=
  ∀ (m : OpcodeMap) (ra : RegNum) (s : State), m.Valid → s.ir = m.push → Memory.wf s.mem = true →
    ∃ s' t, exec (.push ra) s = .next s' ∧ exec (.pop ra) (s'.setIr m.pop) = .next t ∧
      (∀ r, t.reg r = s.reg r) ∧ t.pc = s.pc + 4#8 ∧
      Memory.read t.mem (s.reg 7 - 1#8) = (if ra = 7 then s.reg 7 - 1#8 else s.reg ra) ∧
      ∀ b, b ≠ s.reg 7 - 1#8 → Memory.read t.mem b = Memory.read s.mem b

/-- CALL, then whatever leaves R7 and the pushed byte as the CALL left them, then RET (44_call_return.md, the property
of CALL and RET; wrapping by D2): `pc` is the address after the CALL and R7 is as before the CALL; the RET changes no
other register and no memory, and the CALL changed one cell alone. -/
def Obligations.ReturnResumesAfterTheCall : Prop :=
  ∀ (m : OpcodeMap) (ra : RegNum) (s : State), m.Valid → s.ir = m.call → Memory.wf s.mem = true →
    ∃ t, exec (.call ra) s = .next t ∧
      (∀ b, b ≠ s.reg 7 - 1#8 → Memory.read t.mem b = Memory.read s.mem b) ∧
      ∀ u : State, u.ir = m.ret → u.reg 7 = t.reg 7 →
        Memory.read u.mem (t.reg 7) = Memory.read t.mem (t.reg 7) →
        ∃ v, exec .ret u = .next v ∧ v.pc = s.pc + 2#8 ∧ v.reg 7 = s.reg 7 ∧
          (∀ r, r ≠ 7 → v.reg r = u.reg r) ∧ u.SameMemory v

/-- The stack is last in, first out (43_stack.md section 3): after up to 256 pushes, R7 has moved down by their number
and the cells from R7 on hold the pushed bytes, the last one first. `State.push` is the operation PUSH and CALL
share; addresses wrap by D2 (log 5). -/
def Obligations.PushedBytesStandInReverseOrder : Prop :=
  ∀ (s : State) (vs : List Byte), Memory.wf s.mem = true → vs.length ≤ 256 →
    (vs.foldl (fun s v => s.push fun _ => v) s).reg 7 = s.reg 7 - BitVec.ofNat 8 vs.length ∧
    ∀ (k : Nat) (v : Byte), vs.reverse[k]? = some v →
      Memory.read (vs.foldl (fun s v => s.push fun _ => v) s).mem
        (s.reg 7 - BitVec.ofNat 8 vs.length + BitVec.ofNat 8 k) = v

/-- Instruction-fetch coherence (20_memory.md section 3, the spec's decision D15, log 14): a byte PUSH stores at the
address of the next instruction is the byte the next step fetches. -/
def Obligations.PushedByteIsFetchedByTheNextStep : Prop :=
  ∀ (s : State) (ra : RegNum), s.running = true → Memory.wf s.mem = true →
    Memory.read s.mem s.pc = opcodes.push → regOf (Memory.read s.mem (s.pc + 1#8)) = ra → ra ≠ 7 →
    s.reg 7 - 1#8 = s.pc + 2#8 →
    ∃ t u, step s = .next t ∧ step t = .next u ∧ u.ir = s.reg ra

/-- The bytes of the instruction in progress are read before its own store (20_memory.md section 3, the spec's
decision D6, log 12): a CALL whose push lands on its own operand byte jumps by the register the byte named before,
and a PUSH that lands on its own opcode byte still moves `pc` by 2. -/
def Obligations.OwnBytesAreReadBeforeTheStore : Prop :=
  (∀ (s : State) (ra : RegNum), s.running = true → Memory.wf s.mem = true →
    Memory.read s.mem s.pc = opcodes.call → regOf (Memory.read s.mem (s.pc + 1#8)) = ra → ra ≠ 7 →
    s.reg 7 - 1#8 = s.pc + 1#8 →
    ∃ t, step s = .next t ∧ t.pc = s.reg ra ∧ Memory.read t.mem (s.pc + 1#8) = s.pc + 2#8) ∧
  ∀ (s : State) (ra : RegNum), s.running = true → Memory.wf s.mem = true →
    Memory.read s.mem s.pc = opcodes.push → regOf (Memory.read s.mem (s.pc + 1#8)) = ra → ra ≠ 7 →
    s.reg 7 - 1#8 = s.pc →
    ∃ t, step s = .next t ∧ t.pc = s.pc + 2#8 ∧ Memory.read t.mem s.pc = s.reg ra
end

