-- ==== Sys2Proof/Laws/Decode.lean ====
section
/-! SUPPORT. The decoder: what the Dispatch Table answers, and the bit fields. -/

namespace Sys2Proof

/-- Every kind has a row. -/
theorem mem_all (k : OpKind) : k ∈ OpKind.all := by cases k <;> decide

/-- The bytes of a valid map tell the kinds apart. -/
theorem byte_inj {m : OpcodeMap} (hm : m.Valid) {k k' : OpKind} (h : m.byte k = m.byte k') : k = k' :=
  List.inj_on_of_nodup_map hm.2.2.2.2.2.2.2.2.2 (mem_all k) (mem_all k') h

/-- The Dispatch Table maps an opcode byte to a kind exactly when the byte is that kind's (R65, R89). -/
theorem decodeOpcode_eq_some {m : OpcodeMap} (hm : m.Valid) {op : Byte} {k : OpKind} :
    decodeOpcode m op = some k ↔ m.byte k = op := by
  constructor
  · intro h; simpa using List.find?_some h
  · rintro rfl
    cases hf : decodeOpcode m (m.byte k) with
    | none =>
      have := List.find?_eq_none.1 hf k (mem_all k)
      simp at this
    | some k' =>
      have h' : m.byte k' = m.byte k := by simpa using List.find?_some hf
      rw [byte_inj hm h']

/-- Every row of a valid map decodes to its kind. -/
theorem decodeOpcode_byte {m : OpcodeMap} (hm : m.Valid) (k : OpKind) :
    decodeOpcode m (m.byte k) = some k :=
  (decodeOpcode_eq_some hm).2 rfl

/-- The Dispatch Table has no entry exactly when no kind has the byte (R70). -/
theorem decodeOpcode_eq_none {m : OpcodeMap} {op : Byte} :
    decodeOpcode m op = none ↔ ∀ k, m.byte k ≠ op := by
  unfold decodeOpcode
  rw [List.find?_eq_none]
  constructor
  · intro h k hk; exact h k (mem_all k) (by simp [hk])
  · intro h k _; simp [h k]

/-- A register number survives its operand byte (R64). -/
@[simp] theorem regOf_regByte (r : RegNum) : regOf (regByte r) = r := by revert r; decide

/-- Clearing the reserved bits of an operand byte does not change the register it selects (R71). -/
theorem regByte_regOf (a : Byte) : regByte (regOf a) = a &&& 7#8 := by revert a; decide

/-- The opcode map of this machine is valid. -/
theorem opcodes_valid : opcodes.Valid := by decide

end Sys2Proof
end

