-- ==== Sys2Proof/Laws/Memory.lean ====
section
/-! SUPPORT. Memory: reading after a write, and the canonical form every memory operation keeps. -/

namespace Sys2Proof.Machine

/-- The canonical form, unfolded once for an entry and the rest. -/
theorem wfFrom_cons (lo a : Nat) (v : Byte) (rest : Memory) :
    Memory.wfFrom lo ((a, v) :: rest) = true ↔
      lo ≤ a ∧ a < Config.memSize ∧ v ≠ Memory.unlisted ∧ Memory.wfFrom (a + 1) rest = true := by
  simp [Memory.wfFrom, and_assoc]

/-- A memory whose entries start later is also one whose entries start earlier. -/
theorem wfFrom_mono {lo lo' : Nat} (h : lo' ≤ lo) {m : Memory} (hm : Memory.wfFrom lo m = true) :
    Memory.wfFrom lo' m = true := by
  cases m with
  | nil => rfl
  | cons c rest =>
    obtain ⟨a, v⟩ := c
    rw [wfFrom_cons] at hm ⊢
    exact ⟨h.trans hm.1, hm.2⟩

/-- Below its first possible address a canonical memory lists nothing. -/
theorem lookup_below {m : Memory} {lo a : Nat} (hm : Memory.wfFrom lo m = true) (ha : a < lo) :
    Memory.lookup m a = Memory.unlisted := by
  induction m generalizing lo with
  | nil => rfl
  | cons c rest ih =>
    obtain ⟨b, v⟩ := c
    rw [wfFrom_cons] at hm
    have hne : a ≠ b := by omega
    simp only [Memory.lookup, hne, if_false]
    exact ih hm.2.2.2 (by omega)

/-- A write changes no other address; this needs no canonical form. -/
theorem lookup_insert_ne (m : Memory) {a b : Nat} (v : Byte) (h : b ≠ a) :
    Memory.lookup (Memory.insert m a v) b = Memory.lookup m b := by
  induction m with
  | nil => unfold Memory.insert; split <;> simp [Memory.lookup, h]
  | cons c rest ih =>
    obtain ⟨k, w⟩ := c
    unfold Memory.insert
    split
    · split <;> simp [Memory.lookup, h]
    · split
      · subst k; split <;> simp [Memory.lookup, h]
      · simp [Memory.lookup, ih]

/-- The written address reads as what was written. -/
theorem lookup_insert_same {m : Memory} {lo a : Nat} (v : Byte) (hm : Memory.wfFrom lo m = true) :
    Memory.lookup (Memory.insert m a v) a = v := by
  induction m generalizing lo with
  | nil => unfold Memory.insert; split <;> simp_all [Memory.lookup]
  | cons c rest ih =>
    obtain ⟨k, w⟩ := c
    rw [wfFrom_cons] at hm
    unfold Memory.insert
    split
    next hlt =>
      split
      next hv =>
        subst hv
        have hne : a ≠ k := by omega
        simp only [Memory.lookup, hne, if_false]
        exact lookup_below hm.2.2.2 (by omega)
      next => simp [Memory.lookup]
    next =>
      split
      next hk =>
        subst hk
        split
        next hv => subst hv; exact lookup_below hm.2.2.2 (by omega)
        next => simp [Memory.lookup]
      next hk => simp only [Memory.lookup, hk, if_false]; exact ih hm.2.2.2

/-- A write keeps the canonical form. -/
theorem insert_wfFrom {m : Memory} {lo a : Nat} (v : Byte) (hm : Memory.wfFrom lo m = true) (hlo : lo ≤ a)
    (ha : a < Config.memSize) : Memory.wfFrom lo (Memory.insert m a v) = true := by
  induction m generalizing lo with
  | nil => unfold Memory.insert; split <;> simp_all [Memory.wfFrom]
  | cons c rest ih =>
    obtain ⟨k, w⟩ := c
    have hm' := hm
    rw [wfFrom_cons] at hm
    unfold Memory.insert
    split
    next hlt =>
      split
      next => exact hm'
      next hv => exact (wfFrom_cons ..).2 ⟨hlo, ha, hv, (wfFrom_cons ..).2 ⟨by omega, hm.2⟩⟩
    next =>
      split
      next hk =>
        subst hk
        split
        next => exact wfFrom_mono (by omega) hm.2.2.2
        next hv => exact (wfFrom_cons ..).2 ⟨hlo, ha, hv, hm.2.2.2⟩
      next => exact (wfFrom_cons ..).2 ⟨hm.1, hm.2.1, hm.2.2.1, ih hm.2.2.2 (by omega)⟩

/-- `MemWrite` keeps the canonical form. -/
theorem write_wf {m : Memory} (a v : Byte) (hm : Memory.wf m = true) : Memory.wf (Memory.write m a v) = true :=
  insert_wfFrom v hm (Nat.zero_le _) a.isLt

/-- Storing bytes keeps the canonical form. -/
theorem storeFrom_wf {m : Memory} (a : Byte) (vs : List Byte) (hm : Memory.wf m = true) :
    Memory.wf (Memory.storeFrom m a vs) = true := by
  induction vs generalizing m a with
  | nil => exact hm
  | cons v vs ih => exact ih _ (write_wf a v hm)

/-- `MemRead` of the address just written. -/
@[simp] theorem read_write_same {m : Memory} (a v : Byte) (hm : Memory.wf m = true) :
    Memory.read (Memory.write m a v) a = v :=
  lookup_insert_same v hm

/-- `MemRead` of any other address. -/
@[simp] theorem read_write_ne (m : Memory) {a b : Byte} (v : Byte) (h : b ≠ a) :
    Memory.read (Memory.write m a v) b = Memory.read m b :=
  lookup_insert_ne m v fun e => h (BitVec.eq_of_toNat_eq e)

@[simp] theorem read_nil (a : Byte) : Memory.read [] a = 0#8 := rfl

/-- The machine's memory after one store. -/
theorem store_load_same {s : State} (a v : Byte) (hm : Memory.wf s.mem = true) : (s.store a v).load a = v :=
  read_write_same a v hm

theorem store_load_ne (s : State) {a b : Byte} (v : Byte) (h : b ≠ a) : (s.store a v).load b = s.load b :=
  read_write_ne s.mem v h

end Sys2Proof.Machine
end

