-- ==== Sys2Proof/Laws/State.lean ====
section
/-! SUPPORT. What each update of the state does to each field, one lemma per field per update, and to what is
read through `reg`, `load` and `sp`. -/

namespace Sys2Proof.Machine

/-! ### `setReg` -/

@[simp] theorem setReg_regs (s : State) (r : RegNum) (v : Byte) : (s.setReg r v).regs = s.regs.set r v := rfl
@[simp] theorem setReg_pc (s : State) (r : RegNum) (v : Byte) : (s.setReg r v).pc = s.pc := rfl
@[simp] theorem setReg_ir (s : State) (r : RegNum) (v : Byte) : (s.setReg r v).ir = s.ir := rfl
@[simp] theorem setReg_running (s : State) (r : RegNum) (v : Byte) : (s.setReg r v).running = s.running := rfl
@[simp] theorem setReg_fault (s : State) (r : RegNum) (v : Byte) : (s.setReg r v).fault = s.fault := rfl
@[simp] theorem setReg_out (s : State) (r : RegNum) (v : Byte) : (s.setReg r v).out = s.out := rfl
@[simp] theorem setReg_mem (s : State) (r : RegNum) (v : Byte) : (s.setReg r v).mem = s.mem := rfl
@[simp] theorem setReg_load (s : State) (r : RegNum) (v : Byte) (q : Byte) : (s.setReg r v).load q = s.load q := rfl

/-! ### `setPc` -/

@[simp] theorem setPc_regs (s : State) (t : Byte) : (s.setPc t).regs = s.regs := rfl
@[simp] theorem setPc_pc (s : State) (t : Byte) : (s.setPc t).pc = t := rfl
@[simp] theorem setPc_ir (s : State) (t : Byte) : (s.setPc t).ir = s.ir := rfl
@[simp] theorem setPc_running (s : State) (t : Byte) : (s.setPc t).running = s.running := rfl
@[simp] theorem setPc_fault (s : State) (t : Byte) : (s.setPc t).fault = s.fault := rfl
@[simp] theorem setPc_out (s : State) (t : Byte) : (s.setPc t).out = s.out := rfl
@[simp] theorem setPc_mem (s : State) (t : Byte) : (s.setPc t).mem = s.mem := rfl
@[simp] theorem setPc_reg (s : State) (t : Byte) (q : RegNum) : (s.setPc t).reg q = s.reg q := rfl
@[simp] theorem setPc_sp (s : State) (t : Byte) : (s.setPc t).sp = s.sp := rfl
@[simp] theorem setPc_load (s : State) (t : Byte) (q : Byte) : (s.setPc t).load q = s.load q := rfl

/-! ### `setIr` -/

@[simp] theorem setIr_regs (s : State) (v : Byte) : (s.setIr v).regs = s.regs := rfl
@[simp] theorem setIr_pc (s : State) (v : Byte) : (s.setIr v).pc = s.pc := rfl
@[simp] theorem setIr_ir (s : State) (v : Byte) : (s.setIr v).ir = v := rfl
@[simp] theorem setIr_running (s : State) (v : Byte) : (s.setIr v).running = s.running := rfl
@[simp] theorem setIr_fault (s : State) (v : Byte) : (s.setIr v).fault = s.fault := rfl
@[simp] theorem setIr_out (s : State) (v : Byte) : (s.setIr v).out = s.out := rfl
@[simp] theorem setIr_mem (s : State) (v : Byte) : (s.setIr v).mem = s.mem := rfl
@[simp] theorem setIr_reg (s : State) (v : Byte) (q : RegNum) : (s.setIr v).reg q = s.reg q := rfl
@[simp] theorem setIr_sp (s : State) (v : Byte) : (s.setIr v).sp = s.sp := rfl
@[simp] theorem setIr_load (s : State) (v : Byte) (q : Byte) : (s.setIr v).load q = s.load q := rfl

/-! ### `store` -/

@[simp] theorem store_regs (s : State) (a v : Byte) : (s.store a v).regs = s.regs := rfl
@[simp] theorem store_pc (s : State) (a v : Byte) : (s.store a v).pc = s.pc := rfl
@[simp] theorem store_ir (s : State) (a v : Byte) : (s.store a v).ir = s.ir := rfl
@[simp] theorem store_running (s : State) (a v : Byte) : (s.store a v).running = s.running := rfl
@[simp] theorem store_fault (s : State) (a v : Byte) : (s.store a v).fault = s.fault := rfl
@[simp] theorem store_out (s : State) (a v : Byte) : (s.store a v).out = s.out := rfl
@[simp] theorem store_mem (s : State) (a v : Byte) : (s.store a v).mem = Memory.write s.mem a v := rfl
@[simp] theorem store_reg (s : State) (a v : Byte) (q : RegNum) : (s.store a v).reg q = s.reg q := rfl
@[simp] theorem store_sp (s : State) (a v : Byte) : (s.store a v).sp = s.sp := rfl

/-! ### `emit` -/

@[simp] theorem emit_regs (s : State) (v : Byte) : (s.emit v).regs = s.regs := rfl
@[simp] theorem emit_pc (s : State) (v : Byte) : (s.emit v).pc = s.pc := rfl
@[simp] theorem emit_ir (s : State) (v : Byte) : (s.emit v).ir = s.ir := rfl
@[simp] theorem emit_running (s : State) (v : Byte) : (s.emit v).running = s.running := rfl
@[simp] theorem emit_fault (s : State) (v : Byte) : (s.emit v).fault = s.fault := rfl
@[simp] theorem emit_out (s : State) (v : Byte) : (s.emit v).out = s.out ++ [v] := rfl
@[simp] theorem emit_mem (s : State) (v : Byte) : (s.emit v).mem = s.mem := rfl
@[simp] theorem emit_reg (s : State) (v : Byte) (q : RegNum) : (s.emit v).reg q = s.reg q := rfl
@[simp] theorem emit_sp (s : State) (v : Byte) : (s.emit v).sp = s.sp := rfl
@[simp] theorem emit_load (s : State) (v : Byte) (q : Byte) : (s.emit v).load q = s.load q := rfl

/-! ### `halt` -/

@[simp] theorem halt_regs (s : State) : (s.halt).regs = s.regs := rfl
@[simp] theorem halt_pc (s : State) : (s.halt).pc = s.pc := rfl
@[simp] theorem halt_ir (s : State) : (s.halt).ir = s.ir := rfl
@[simp] theorem halt_running (s : State) : (s.halt).running = false := rfl
@[simp] theorem halt_fault (s : State) : (s.halt).fault = s.fault := rfl
@[simp] theorem halt_out (s : State) : (s.halt).out = s.out := rfl
@[simp] theorem halt_mem (s : State) : (s.halt).mem = s.mem := rfl
@[simp] theorem halt_reg (s : State) (q : RegNum) : (s.halt).reg q = s.reg q := rfl
@[simp] theorem halt_sp (s : State) : (s.halt).sp = s.sp := rfl
@[simp] theorem halt_load (s : State) (q : Byte) : (s.halt).load q = s.load q := rfl

/-! ### `fatal` -/

@[simp] theorem fatal_regs (s : State) (e : FatalError) : (s.fatal e).regs = s.regs := rfl
@[simp] theorem fatal_pc (s : State) (e : FatalError) : (s.fatal e).pc = s.pc := rfl
@[simp] theorem fatal_ir (s : State) (e : FatalError) : (s.fatal e).ir = s.ir := rfl
@[simp] theorem fatal_running (s : State) (e : FatalError) : (s.fatal e).running = false := rfl
@[simp] theorem fatal_fault (s : State) (e : FatalError) : (s.fatal e).fault = some e := rfl
@[simp] theorem fatal_out (s : State) (e : FatalError) : (s.fatal e).out = s.out := rfl
@[simp] theorem fatal_mem (s : State) (e : FatalError) : (s.fatal e).mem = s.mem := rfl
@[simp] theorem fatal_reg (s : State) (e : FatalError) (q : RegNum) : (s.fatal e).reg q = s.reg q := rfl
@[simp] theorem fatal_sp (s : State) (e : FatalError) : (s.fatal e).sp = s.sp := rfl
@[simp] theorem fatal_load (s : State) (e : FatalError) (q : Byte) : (s.fatal e).load q = s.load q := rfl

/-! ### `fetch` -/

@[simp] theorem fetch_regs (s : State) : (s.fetch).regs = s.regs := rfl
@[simp] theorem fetch_pc (s : State) : (s.fetch).pc = s.pc := rfl
@[simp] theorem fetch_ir (s : State) : (s.fetch).ir = s.load s.pc := rfl
@[simp] theorem fetch_running (s : State) : (s.fetch).running = s.running := rfl
@[simp] theorem fetch_fault (s : State) : (s.fetch).fault = s.fault := rfl
@[simp] theorem fetch_out (s : State) : (s.fetch).out = s.out := rfl
@[simp] theorem fetch_mem (s : State) : (s.fetch).mem = s.mem := rfl
@[simp] theorem fetch_reg (s : State) (q : RegNum) : (s.fetch).reg q = s.reg q := rfl
@[simp] theorem fetch_sp (s : State) : (s.fetch).sp = s.sp := rfl
@[simp] theorem fetch_load (s : State) (q : Byte) : (s.fetch).load q = s.load q := rfl

/-! ### `decSp` -/

@[simp] theorem decSp_regs (s : State) : (s.decSp).regs = s.regs.set Config.spIndex (s.sp - 1#8) := rfl
@[simp] theorem decSp_pc (s : State) : (s.decSp).pc = s.pc := rfl
@[simp] theorem decSp_ir (s : State) : (s.decSp).ir = s.ir := rfl
@[simp] theorem decSp_running (s : State) : (s.decSp).running = s.running := rfl
@[simp] theorem decSp_fault (s : State) : (s.decSp).fault = s.fault := rfl
@[simp] theorem decSp_out (s : State) : (s.decSp).out = s.out := rfl
@[simp] theorem decSp_mem (s : State) : (s.decSp).mem = s.mem := rfl
@[simp] theorem decSp_load (s : State) (q : Byte) : (s.decSp).load q = s.load q := rfl

/-! ### `incSp` -/

@[simp] theorem incSp_regs (s : State) : (s.incSp).regs = s.regs.set Config.spIndex (s.sp + 1#8) := rfl
@[simp] theorem incSp_pc (s : State) : (s.incSp).pc = s.pc := rfl
@[simp] theorem incSp_ir (s : State) : (s.incSp).ir = s.ir := rfl
@[simp] theorem incSp_running (s : State) : (s.incSp).running = s.running := rfl
@[simp] theorem incSp_fault (s : State) : (s.incSp).fault = s.fault := rfl
@[simp] theorem incSp_out (s : State) : (s.incSp).out = s.out := rfl
@[simp] theorem incSp_mem (s : State) : (s.incSp).mem = s.mem := rfl
@[simp] theorem incSp_load (s : State) (q : Byte) : (s.incSp).load q = s.load q := rfl

/-! ### Registers read after a write -/

theorem setReg_reg (s : State) (r q : RegNum) (v : Byte) :
    (s.setReg r v).reg q = if q = r then v else s.reg q := by
  by_cases h : q = r
  · subst h; simp [State.reg, State.setReg]
  · have h' : (r : Nat) ≠ q := fun e => h (Fin.ext e.symm)
    simp [State.reg, State.setReg, h, Vector.getElem_set_ne _ _ h']

@[simp] theorem setReg_reg_same (s : State) (r : RegNum) (v : Byte) : (s.setReg r v).reg r = v := by
  simp [setReg_reg]

@[simp] theorem setReg_reg_ne (s : State) {r q : RegNum} (v : Byte) (h : q ≠ r) :
    (s.setReg r v).reg q = s.reg q := by
  simp [setReg_reg, h]

@[simp] theorem decSp_sp (s : State) : s.decSp.sp = s.sp - 1#8 := setReg_reg_same ..

@[simp] theorem incSp_sp (s : State) : s.incSp.sp = s.sp + 1#8 := setReg_reg_same ..

theorem decSp_reg (s : State) (q : RegNum) :
    s.decSp.reg q = if q = Config.spIndex then s.sp - 1#8 else s.reg q := setReg_reg ..

theorem incSp_reg (s : State) (q : RegNum) :
    s.incSp.reg q = if q = Config.spIndex then s.sp + 1#8 else s.reg q := setReg_reg ..

@[simp] theorem pushAddr_eq (s : State) : s.pushAddr = s.sp - 1#8 := decSp_sp s

end Sys2Proof.Machine
end

