-- ==== Sys2Proof/Laws/Ops.lean ====
section
/-! SUPPORT. Everything each shared operation does, said once: the advance, the push, the pop, the ALU and the
step. Later proofs cite these instead of unfolding. -/

namespace Sys2Proof.Machine

/-! ### The advance -/

/-- The advance changes `pc` at most. -/
theorem advance_eq (s : State) :
    s.advance = s.setPc (if setsPc s.ir then s.pc else nextInOrder s.pc s.ir) := by
  unfold State.advance; split <;> rfl

theorem advance_pc (s : State) :
    s.advance.pc = if setsPc s.ir then s.pc else nextInOrder s.pc s.ir := by rw [advance_eq]; rfl

@[simp] theorem advance_regs (s : State) : s.advance.regs = s.regs := by rw [advance_eq]; rfl
@[simp] theorem advance_ir (s : State) : s.advance.ir = s.ir := by rw [advance_eq]; rfl
@[simp] theorem advance_running (s : State) : s.advance.running = s.running := by rw [advance_eq]; rfl
@[simp] theorem advance_fault (s : State) : s.advance.fault = s.fault := by rw [advance_eq]; rfl
@[simp] theorem advance_out (s : State) : s.advance.out = s.out := by rw [advance_eq]; rfl
@[simp] theorem advance_mem (s : State) : s.advance.mem = s.mem := by rw [advance_eq]; rfl
@[simp] theorem advance_reg (s : State) (q : RegNum) : s.advance.reg q = s.reg q := by rw [advance_eq]; rfl
@[simp] theorem advance_sp (s : State) : s.advance.sp = s.sp := by rw [advance_eq]; rfl
@[simp] theorem advance_load (s : State) (a : Byte) : s.advance.load a = s.load a := by rw [advance_eq]; rfl

/-! ### The push (R120) -/

@[simp] theorem push_regs (s : State) (f : State → Byte) :
    (s.push f).regs = s.regs.set Config.spIndex (s.sp - 1#8) := rfl
@[simp] theorem push_pc (s : State) (f : State → Byte) : (s.push f).pc = s.pc := rfl
@[simp] theorem push_ir (s : State) (f : State → Byte) : (s.push f).ir = s.ir := rfl
@[simp] theorem push_running (s : State) (f : State → Byte) : (s.push f).running = s.running := rfl
@[simp] theorem push_fault (s : State) (f : State → Byte) : (s.push f).fault = s.fault := rfl
@[simp] theorem push_out (s : State) (f : State → Byte) : (s.push f).out = s.out := rfl
theorem push_mem (s : State) (f : State → Byte) :
    (s.push f).mem = Memory.write s.mem (s.sp - 1#8) (f s.decSp) := by
  simp [State.push]
theorem push_reg (s : State) (f : State → Byte) (q : RegNum) : (s.push f).reg q = s.decSp.reg q := rfl
@[simp] theorem push_sp (s : State) (f : State → Byte) : (s.push f).sp = s.sp - 1#8 := decSp_sp s

/-- The pushed byte is at the new stack pointer. -/
theorem push_load_same (s : State) (f : State → Byte) (hm : Memory.wf s.mem = true) :
    (s.push f).load (s.sp - 1#8) = f s.decSp := by
  unfold State.load; rw [push_mem]; exact read_write_same _ _ hm

/-- Every other byte of memory is as before. -/
theorem push_load_ne (s : State) (f : State → Byte) {a : Byte} (h : a ≠ s.sp - 1#8) :
    (s.push f).load a = s.load a := by
  unfold State.load; rw [push_mem]; exact read_write_ne _ _ h

/-! ### The pops (R120) -/

/-- The two pops there are, written out. -/
theorem pop_setReg (s : State) (r : RegNum) :
    s.pop (fun t v => t.setReg r v) = (s.setReg r (s.load s.sp)).incSp := rfl

theorem pop_setPc (s : State) : s.pop State.setPc = (s.setPc (s.load s.sp)).incSp := rfl

/-! ### The ALU (R110, R111, R114) -/

/-- For a program's two tags the ALU writes its result and never fails. -/
theorem aluApply_ok {op : AluTag} {ra rb : RegNum} {s : State} {v : Byte}
    (h : alu op (s.reg ra) (s.reg rb) = .ok v) : aluApply op ra rb s = .next (s.setReg ra v).advance := by
  simp [aluApply, h]

theorem aluApply_error {op : AluTag} {ra rb : RegNum} {s : State} {e : FatalError}
    (h : alu op (s.reg ra) (s.reg rb) = .error e) : aluApply op ra rb s = .next (s.fatal e) := by
  simp [aluApply, h]

/-! ### exec and step -/

/-- The state each instruction's meaning answers: the handler's effect, then the advance. -/
theorem exec_cases (i : Instr) (s : State) :
    exec i s = .next (match i with
      | .ldi ra imm => (s.setReg ra imm).advance
      | .prn ra => (s.emit (s.reg ra)).advance
      | .hlt => s.halt.advance
      | .add ra rb => (s.setReg ra (BitVec.ofNat 8 ((s.reg ra).toNat + (s.reg rb).toNat))).advance
      | .mul ra rb => (s.setReg ra (BitVec.ofNat 8 ((s.reg ra).toNat * (s.reg rb).toNat))).advance
      | .push ra => (s.push fun t => t.reg ra).advance
      | .pop ra => ((s.setReg ra (s.load s.sp)).incSp).advance
      | .call ra => ((s.push State.returnAddress).jumpReg ra).advance
      | .ret => ((s.setPc (s.load s.sp)).incSp).advance) := by
  cases i <;> rfl

/-! One lemma per instruction, to rewrite with. -/

theorem exec_ldi (ra : RegNum) (imm : Byte) (s : State) :
    exec (.ldi ra imm) s = .next (s.setReg ra imm).advance := rfl
theorem exec_prn (ra : RegNum) (s : State) : exec (.prn ra) s = .next (s.emit (s.reg ra)).advance := rfl
theorem exec_hlt (s : State) : exec .hlt s = .next s.halt.advance := rfl
theorem exec_add (ra rb : RegNum) (s : State) : exec (.add ra rb) s =
    .next (s.setReg ra (BitVec.ofNat 8 ((s.reg ra).toNat + (s.reg rb).toNat))).advance := rfl
theorem exec_mul (ra rb : RegNum) (s : State) : exec (.mul ra rb) s =
    .next (s.setReg ra (BitVec.ofNat 8 ((s.reg ra).toNat * (s.reg rb).toNat))).advance := rfl
theorem exec_push (ra : RegNum) (s : State) :
    exec (.push ra) s = .next (s.push fun t => t.reg ra).advance := rfl
theorem exec_pop (ra : RegNum) (s : State) :
    exec (.pop ra) s = .next ((s.setReg ra (s.load s.sp)).incSp).advance := rfl
theorem exec_call (ra : RegNum) (s : State) :
    exec (.call ra) s = .next ((s.push State.returnAddress).jumpReg ra).advance := rfl
theorem exec_ret (s : State) : exec .ret s = .next ((s.setPc (s.load s.sp)).incSp).advance := rfl

/-- Everything a step that answers a next state can have done, under any opcode map. -/
theorem stepWith_cases {m : OpcodeMap} {s t : State} (h : stepWith m s = .next t) :
    s.running = true ∧
      ((s.fetch.instr m = none ∧ t = s.fetch.fatal (.unsupportedOpcode (s.load s.pc) s.pc)) ∨
        ∃ i, s.fetch.instr m = some i ∧ exec i s.fetch = .next t) := by
  unfold stepWith at h
  split at h
  next hr =>
    refine ⟨hr, ?_⟩
    split at h
    next hn => left; refine ⟨hn, ?_⟩; injection h with h; exact h.symm
    next i hi => right; exact ⟨i, hi, h⟩
  next => cases h

/-- A machine that is not running has no step. -/
theorem stepWith_stopped {m : OpcodeMap} {s : State} (h : s.running = false) :
    stepWith m s = .fault .notRunning := by
  simp [stepWith, h]

/-- A running machine's step on a supported opcode is the instruction's meaning. -/
theorem stepWith_supported {m : OpcodeMap} {s : State} {i : Instr} (hr : s.running = true)
    (hi : s.fetch.instr m = some i) : stepWith m s = exec i s.fetch := by
  simp [stepWith, hr, hi]

/-- A running machine's step on an unsupported opcode. -/
theorem stepWith_unsupported {m : OpcodeMap} {s : State} (hr : s.running = true) (hi : s.fetch.instr m = none) :
    stepWith m s = .next (s.fetch.fatal (.unsupportedOpcode (s.load s.pc) s.pc)) := by
  simp [stepWith, hr, hi]

/-! The same of this machine's step. -/

theorem step_eq (s : State) : step s = stepWith opcodes s := rfl

theorem step_cases {s t : State} (h : step s = .next t) :
    s.running = true ∧
      ((s.fetch.instr opcodes = none ∧ t = s.fetch.fatal (.unsupportedOpcode (s.load s.pc) s.pc)) ∨
        ∃ i, s.fetch.instr opcodes = some i ∧ exec i s.fetch = .next t) := stepWith_cases h

theorem step_stopped {s : State} (h : s.running = false) : step s = .fault .notRunning := stepWith_stopped h

theorem step_supported {s : State} {i : Instr} (hr : s.running = true) (hi : s.fetch.instr opcodes = some i) :
    step s = exec i s.fetch := stepWith_supported hr hi

theorem step_unsupported {s : State} (hr : s.running = true) (hi : s.fetch.instr opcodes = none) :
    step s = .next (s.fetch.fatal (.unsupportedOpcode (s.load s.pc) s.pc)) := stepWith_unsupported hr hi

/-! ### The host's actions -/

/-- Everything a load that succeeds does. -/
theorem loadImage_cases {s t : State} {image : List Byte} (h : s.loadImage image = some t) :
    s.beforeStart = true ∧ imageOk image = true ∧
      t = { s with mem := Memory.storeFrom s.mem Config.loadBase image } := by
  unfold State.loadImage at h
  split at h
  next hc => rw [Bool.and_eq_true] at hc; injection h with h; exact ⟨hc.1, hc.2, h.symm⟩
  next => cases h

/-- Everything a start that succeeds does. -/
theorem start_cases {s t : State} (h : s.start = some t) :
    s.beforeStart = true ∧ t = { s with running := true } := by
  unfold State.start at h
  split at h
  next hc => injection h with h; exact ⟨hc, h.symm⟩
  next => cases h

/-- The launch state of an image, if it has one: the image over the reset state, running. -/
theorem launch_eq (image : List Byte) :
    launch image = if imageOk image then
      some { State.reset with mem := Memory.storeFrom [] Config.loadBase image, running := true } else none := by
  cases h : imageOk image <;> simp [launch, State.loadImage, State.start, State.beforeStart, State.reset, h]

/-! ### The run -/

@[simp] theorem runFor_zero (m : OpcodeMap) (s : State) : runFor m 0 s = s := rfl

/-- One step and then the run from the state it answers. -/
theorem runFor_succ {m : OpcodeMap} {s t : State} (n : Nat) (h : stepWith m s = .next t) :
    runFor m (n + 1) s = runFor m n t := by
  simp [runFor, h]

/-- A stopped machine's run stays where it is. -/
theorem runFor_stopped {m : OpcodeMap} {s : State} (n : Nat) (h : s.running = false) : runFor m n s = s := by
  cases n with
  | zero => rfl
  | succ n => simp [runFor, stepWith_stopped h]

/-- What holds of a state and is kept by every step holds along the run from it. -/
theorem runFor_induction {m : OpcodeMap} {P : State → Prop}
    (hstep : ∀ s t, P s → stepWith m s = .next t → P t) (n : Nat) {s : State} (hs : P s) : P (runFor m n s) := by
  induction n generalizing s with
  | zero => exact hs
  | succ n ih =>
    cases h : stepWith m s with
    | next t => rw [runFor_succ n h]; exact ih (hstep s t hs h)
    | fault r => simpa [runFor, h] using hs
    | refused r => simpa [runFor, h] using hs

end Sys2Proof.Machine
end

