-- ==== Sys2Proof/Laws/PerInstr.lean ====
section
/-! SUPPORT. Statements about every instruction as syntax, one lemma per constructor. Family `EncodedForm`: the
encoded bytes are exactly one instruction as assemblers must write it, the opcode byte first (R64, R65, R71). -/

namespace Sys2Proof.Laws

/-- `bytesOk` of an encoding, reduced to its operand bytes. -/
theorem bytesOk_encode {m : OpcodeMap} (hm : m.Valid) (i : Instr) :
    bytesOk m (encode m i) = operandsOk i.kind.format (operandBytes i) := by
  simp [bytesOk, encode, decodeOpcode_byte hm]

/-- The register operand byte of an encoding has its reserved bits zero. -/
theorem registerByteOk_regByte (r : RegNum) : registerByteOk (regByte r) = true := by revert r; decide

/-- The encoding under every valid opcode map is well-formed program text and begins with the opcode byte. -/
def EncodedForm.Statement (i : Instr) : Prop :=
  ∀ m : OpcodeMap, m.Valid → bytesOk m (encode m i) = true ∧ (encode m i).head? = some (m.byte i.kind)

theorem EncodedForm.ldi (ra : RegNum) (imm : Byte) : EncodedForm.Statement (.ldi ra imm) := fun _ hm =>
  ⟨(bytesOk_encode hm _).trans (registerByteOk_regByte ra), rfl⟩

theorem EncodedForm.prn (ra : RegNum) : EncodedForm.Statement (.prn ra) := fun _ hm =>
  ⟨(bytesOk_encode hm _).trans (registerByteOk_regByte ra), rfl⟩

theorem EncodedForm.hlt : EncodedForm.Statement .hlt := fun _ hm => ⟨bytesOk_encode hm _, rfl⟩

theorem EncodedForm.add (ra rb : RegNum) : EncodedForm.Statement (.add ra rb) := fun _ hm =>
  ⟨(bytesOk_encode hm _).trans (by
    simp [Instr.kind, OpKind.format, operandBytes, operandsOk, registerByteOk_regByte]), rfl⟩

theorem EncodedForm.mul (ra rb : RegNum) : EncodedForm.Statement (.mul ra rb) := fun _ hm =>
  ⟨(bytesOk_encode hm _).trans (by
    simp [Instr.kind, OpKind.format, operandBytes, operandsOk, registerByteOk_regByte]), rfl⟩

theorem EncodedForm.push (ra : RegNum) : EncodedForm.Statement (.push ra) := fun _ hm =>
  ⟨(bytesOk_encode hm _).trans (registerByteOk_regByte ra), rfl⟩

theorem EncodedForm.pop (ra : RegNum) : EncodedForm.Statement (.pop ra) := fun _ hm =>
  ⟨(bytesOk_encode hm _).trans (registerByteOk_regByte ra), rfl⟩

theorem EncodedForm.call (ra : RegNum) : EncodedForm.Statement (.call ra) := fun _ hm =>
  ⟨(bytesOk_encode hm _).trans (registerByteOk_regByte ra), rfl⟩

theorem EncodedForm.ret : EncodedForm.Statement .ret := fun _ hm => ⟨bytesOk_encode hm _, rfl⟩

end Sys2Proof.Laws
end

