-- ==== Sys2Proof/Tests/Slice0.lean ====
section
/-! SUPPORT. The model's own tests. Expected results are the spec's: 95_test_vectors.md (the vector's id stands in
each comment), the encodings of 30_encoding.md, and the rules' corner cases. The last part shows, for each statement
of Certificates/Slice0/Obligations.lean that has hypotheses, states and operands that meet them (`witness_…`). -/

namespace Sys2Proof.Tests

open Sys2Proof.Machine

/-- The next state, if the answer is one. -/
def answered : Result → Option State
  | .next t => some t
  | .fault _ => none
  | .refused _ => none

/-- A running machine with these registers, `pc` and memory, and the rest as after reset. -/
def machine (regs : Vector Byte 8) (pc : Byte) (mem : Memory) : State :=
  { State.reset with regs := regs, pc := pc, mem := mem, running := true }

/-- The reset registers. -/
def regs0 : Vector Byte 8 := State.reset.regs

/-- The registers, `pc` and `IR` after one step. -/
def after (s : State) : Option (List Byte × Byte × Byte) :=
  (answered (step s)).map fun t => (t.regs.toList, t.pc, t.ir)

/-- One cell and `pc` after one step. -/
def cellAfter (s : State) (a : Byte) : Option (Byte × Byte) := (answered (step s)).map fun t => (t.load a, t.pc)

/-- LDI R1,9 at 0x00, a running machine. -/
def atLdi : State := machine regs0 0 [(0, 0x82#8), (1, 0x01#8), (2, 0x09#8)]

/-- A running machine over zeroed memory. -/
def atZero : State := machine regs0 0 []

/-- A running machine whose `pc` is at an opcode byte with operand byte 0x01 and `x[1] = 0x40`. -/
def atOpcode (op sp : Byte) : State :=
  machine #v[0, 0x40#8, 0, 0, 0, 0, 0, sp] 0x20#8 (Memory.storeFrom [] 0x20#8 [op, 0x01#8])

/-- A valid opcode map with other bytes for ADD and POP. -/
def otherMap : OpcodeMap := { opcodes with add := 0xA7#8, pop := 0x4E#8 }

/-- The state the fetch of an opcode hands on. -/
def latched (op : Byte) : State := { atLdi with ir := op }

/-! ### Well-formedness: each check refuses an ill-formed term -/

theorem test_valid_map : opcodes.Valid := by decide

theorem test_invalid_maps : ∀ m ∈ [
    { opcodes with ldi := 0x83#8 }, { opcodes with prn := 0x48#8 }, { opcodes with hlt := 0x02#8 },
    { opcodes with mul := 0xA3#8 }, { opcodes with add := 0x60#8 }, { opcodes with add := 0xB0#8 },
    { opcodes with push := 0x85#8 }, { opcodes with push := 0x55#8 }, { opcodes with pop := 0x06#8 },
    { opcodes with pop := 0x56#8 }, { opcodes with call := 0x10#8 }, { opcodes with call := 0x40#8 },
    { opcodes with ret := 0x51#8 }, { opcodes with ret := 0x00#8 }, { opcodes with pop := 0x45#8 }],
    ¬ m.Valid := by decide

theorem test_reserved_register_byte : registerByteOk 0x07#8 = true ∧ registerByteOk 0x08#8 = false := by decide

theorem test_operands_of_each_format :
    operandsOk .z [0#8] = false ∧ operandsOk .r [0x0A#8] = false ∧ operandsOk .r [] = false ∧
    operandsOk .rr [0#8, 0x10#8] = false ∧ operandsOk .rr [0x10#8, 0#8] = false ∧
    operandsOk .ri [0x0F#8, 0#8] = false ∧ operandsOk .ri [0x07#8, 0xFF#8] = true := by decide

theorem test_program_text :
    bytesOk opcodes [] = false ∧ bytesOk opcodes [0x00#8] = false ∧ bytesOk opcodes [0x82#8, 0x0F#8, 0#8] = false ∧
    bytesOk opcodes [0x82#8, 0x07#8, 0xF8#8] = true := by decide

theorem test_oversized_image :
    imageOk (List.replicate 257 0#8) = false ∧ imageOk (List.replicate 256 0#8) = true := by
  simp [imageOk, Config.memSize, -List.reduceReplicate]

/-! ### Decoding: every constructor's word, written out from R65's binary column and R64's formats -/

theorem test_decode_ldi : decode opcodes [0b10000010#8, 0b00000101#8, 0b11111110#8] = .ok (.ldi 5 254#8, []) := by
  decide

theorem test_decode_prn : decode opcodes [0b01000111#8, 0b00000110#8] = .ok (.prn 6, []) := by decide

theorem test_decode_hlt : decode opcodes [0b00000001#8] = .ok (.hlt, []) := by decide

theorem test_decode_add : decode opcodes [0b10100000#8, 0b00000011#8, 0b00000100#8] = .ok (.add 3 4, []) := by decide

theorem test_decode_mul : decode opcodes [0b10100010#8, 0b00000001#8, 0b00000010#8] = .ok (.mul 1 2, []) := by decide

theorem test_decode_push : decode opcodes [0b01000101#8, 0b00000111#8] = .ok (.push 7, []) := by decide

theorem test_decode_pop : decode opcodes [0b01000110#8, 0b00000010#8] = .ok (.pop 2, []) := by decide

theorem test_decode_call : decode opcodes [0b01010000#8, 0b00000100#8] = .ok (.call 4, []) := by decide

theorem test_decode_ret : decode opcodes [0b00010001#8, 0xAB#8] = .ok (.ret, [0xAB#8]) := by decide

/-- E1 to E4f: none of these bytes is an opcode. -/
theorem test_unsupported_bytes :
    ∀ op ∈ [0x00#8, 0xFF#8, 0xC0#8, 0x83#8, 0x02#8, 0xA1#8, 0x54#8, 0x92#8, 0x51#8],
      decode opcodes [op, 0#8, 0#8] = .error (.unsupportedOpcode op) := by decide

/-- An instruction cut short is no instruction (R60). -/
theorem test_truncated : decode opcodes [0x82#8, 0#8] = .error .truncated := by decide

/-- The table word of LDI R1,9: the opcode byte is bits 7:0. -/
theorem test_table_word :
    decodeTableWord 24 0x090182 = some (.ldi 1 9#8) ∧ decodeTableWord 8 0x090182 = some (.ldi 0 0#8) := by decide

/-! ### One step each -/

/-- E5: LDI at 0xFE takes its operands from 0xFF and 0x00. -/
theorem test_ldi_straddles_the_wrap :
    after (machine regs0 0xFE#8 [(0, 0x33#8), (0xFE, 0x82#8), (0xFF, 0x01#8)]) =
      some ([0, 0x33#8, 0, 0, 0, 0, 0, 0xF4#8], 0x01#8, 0x82#8) := by decide

/-- L3: register byte 0x0F selects R7. -/
theorem test_ldi_reserved_bits :
    after (machine regs0 0 [(0, 0x82#8), (1, 0x0F#8), (2, 0x10#8)]) =
      some ([0, 0, 0, 0, 0, 0, 0, 0x10#8], 0x03#8, 0x82#8) := by decide

/-- E6: PRN at 0xFF takes its operand from 0x00; the value comes after what was emitted before. -/
theorem test_prn_at_the_top :
    (answered (step { machine #v[0, 0, 0x2A#8, 0, 0, 0, 0, 0xF4#8] 0xFF#8 [(0, 0x02#8), (0xFF, 0x47#8)] with
      out := [7#8] })).map (fun t => (t.out, t.pc)) = some ([7#8, 42#8], 0x01#8) := by decide

/-- P2v: PRN R7 emits the stack pointer. -/
theorem test_prn_sp :
    (answered (step (machine regs0 0 [(0, 0x47#8), (1, 0x07#8)]))).map (fun t => (t.out, t.pc)) =
      some ([244#8], 0x02#8) := by decide

/-- H1: HLT stops and moves `pc` by 1. -/
theorem test_hlt : (answered (step (machine regs0 5 [(5, 0x01#8)]))).map (fun t => (t.running, t.fault, t.pc)) =
    some (false, none, 0x06#8) := by decide

/-- E7: HLT at 0xFF. -/
theorem test_hlt_at_the_top : (answered (step (machine regs0 0xFF#8 [(0xFF, 0x01#8)]))).map
    (fun t => (t.running, t.pc)) = some (false, 0x00#8) := by decide

/-- A1: 200 + 100 wraps to 44. -/
theorem test_add_wraps :
    after (machine #v[0xC8#8, 0x64#8, 0, 0, 0, 0, 0, 0xF4#8] 6 [(6, 0xA0#8), (8, 0x01#8)]) =
      some ([0x2C#8, 0x64#8, 0, 0, 0, 0, 0, 0xF4#8], 0x09#8, 0xA0#8) := by decide

/-- A7: ADD R1,R7. -/
theorem test_add_from_sp :
    after (machine #v[0, 0x10#8, 0, 0, 0, 0, 0, 0xF4#8] 0 [(0, 0xA0#8), (1, 0x01#8), (2, 0x07#8)]) =
      some ([0, 0x04#8, 0, 0, 0, 0, 0, 0xF4#8], 0x03#8, 0xA0#8) := by decide

/-- M3: 255 times 255. -/
theorem test_mul_low_byte :
    after (machine #v[0xFF#8, 0xFF#8, 0, 0, 0, 0, 0, 0xF4#8] 0 [(0, 0xA2#8), (2, 0x01#8)]) =
      some ([0x01#8, 0xFF#8, 0, 0, 0, 0, 0, 0xF4#8], 0x03#8, 0xA2#8) := by decide

/-- M8: the destination is the first operand. -/
theorem test_mul_destination :
    after (machine #v[0x09#8, 0x08#8, 0, 0, 0, 0, 0, 0xF4#8] 0 [(0, 0xA2#8), (1, 0x01#8)]) =
      some ([0x09#8, 0x48#8, 0, 0, 0, 0, 0, 0xF4#8], 0x03#8, 0xA2#8) := by decide

/-- S3v: PUSH R7 stores the decremented stack pointer. -/
theorem test_push_sp : cellAfter (machine regs0 0 [(0, 0x45#8), (1, 0x07#8)]) 0xF3#8 = some (0xF3#8, 0x02#8) := by
  decide

/-- S10v: a PUSH over its own opcode byte still advances by the latched `IR`. -/
theorem test_push_over_itself :
    cellAfter (machine #v[0x01#8, 0, 0, 0, 0, 0, 0, 0x31#8] 0x30#8 [(0x30, 0x45#8)]) 0x30#8 =
      some (0x01#8, 0x32#8) := by decide

/-- S7v: POP R7 is the loaded byte plus 1. -/
theorem test_pop_sp :
    after (machine #v[0, 0, 0, 0, 0, 0, 0, 0xF3#8] 0 [(0, 0x46#8), (1, 0x07#8), (0xF3, 0x20#8)]) =
      some ([0, 0, 0, 0, 0, 0, 0, 0x21#8], 0x02#8, 0x46#8) := by decide

/-- S6v: a pop at 0xFF wraps the stack pointer. -/
theorem test_pop_wraps :
    after (machine #v[0, 0, 0, 0, 0, 0, 0, 0xFF#8] 0 [(0, 0x46#8), (1, 0x02#8), (0xFF, 0x9C#8)]) =
      some ([0, 0, 0x9C#8, 0, 0, 0, 0, 0x00#8], 0x02#8, 0x46#8) := by decide

/-- K5: a CALL over its own operand byte uses the register read before. -/
theorem test_call_over_its_operand :
    cellAfter (machine #v[0, 0x40#8, 0x60#8, 0, 0, 0, 0, 0x22#8] 0x20#8 [(0x20, 0x50#8), (0x21, 0x01#8)]) 0x21#8 =
      some (0x22#8, 0x40#8) := by decide

/-- K2: CALL R7 jumps to the decremented stack pointer. -/
theorem test_call_sp : cellAfter (machine regs0 0 [(0, 0x50#8), (1, 0x07#8)]) 0xF3#8 = some (0x02#8, 0xF3#8) := by
  decide

/-- K6: an ordinary return. -/
theorem test_ret :
    after (machine #v[0, 0, 0, 0, 0, 0, 0, 0xF3#8] 0x10#8 [(0x10, 0x11#8), (0xF3, 0x0B#8)]) =
      some ([0, 0, 0, 0, 0, 0, 0, 0xF4#8], 0x0B#8, 0x11#8) := by decide

/-- K8: a return at 0xFF wraps the stack pointer. -/
theorem test_ret_wraps :
    after (machine #v[0, 0, 0, 0, 0, 0, 0, 0xFF#8] 0x10#8 [(0x10, 0x11#8), (0xFF, 0x42#8)]) =
      some ([0, 0, 0, 0, 0, 0, 0, 0x00#8], 0x42#8, 0x11#8) := by decide

/-- E2: the fatal error of byte 0xFF at 0x10. -/
theorem test_unsupported_step :
    answered (step (machine regs0 0x10#8 [(0x10, 0xFF#8)])) =
      some { machine regs0 0x10#8 [(0x10, 0xFF#8)] with
        ir := 0xFF#8, running := false, fault := some (.unsupportedOpcode 0xFF#8 0x10#8) } := by decide

/-- K9: a byte that already reads 0x00 written again leaves memory the same data. -/
theorem test_zero_write_is_canonical :
    (answered (step (machine #v[0x20#8, 0, 0, 0, 0, 0, 0, 0xF4#8] 0xFE#8 [(0xFE, 0x50#8)]))).map
      (fun t => (t.mem, t.pc)) = some ([(0xFE, 0x50#8)], 0x20#8) := by decide

/-- A machine that is not running has no step (R80), and the reset state is not running (R33). -/
theorem test_reset_has_no_step : answered (step State.reset) = none := by decide

/-- The first instruction after reset, placed from outside (log 8): MUL R0,R0 of zeros. -/
theorem test_first_step_after_reset :
    after (State.reset.withFetchWord 8 0xA2) = some ([0, 0, 0, 0, 0, 0, 0, 0xF4#8], 0x03#8, 0xA2#8) := by decide

/-- A machine that was never started has not ended; one that executed HLT has, and takes no load and no start
(R181). -/
theorem test_no_restart_after_hlt :
    ¬ State.reset.EndedNormally ∧
    (answered (step (machine regs0 5 [(5, 0x01#8)]))).map
      (fun t => (decide t.EndedNormally, t.start, t.loadImage [])) = some (true, none, none) := by decide

/-- The same byte under another valid opcode map is another map's instruction, or none (R66). -/
theorem test_step_takes_the_map :
    ((answered (stepWith otherMap (atOpcode 0xA7#8 0xF4#8))).map fun t => (t.reg 1, t.pc)) =
      some (0x40#8, 0x23#8) ∧
    ((answered (step (atOpcode 0xA7#8 0xF4#8))).map fun t => (t.running, t.pc)) = some (false, 0x20#8) := by decide

/-- R152, R164: the status outputs of a recorded error. -/
theorem test_status :
    ((answered (step (machine regs0 0x10#8 [(0x10, 0xFF#8)]))).map State.status) =
      some { running := false, faultKind := 1, faultIr := some 0xFF#8, faultPc := some 0x10#8 } := by decide

/-- R114: a foreign tag is the ALU's fatal error. -/
theorem test_alu_foreign_tag :
    alu (.other 3) 1#8 2#8 = .error (.unsupportedALUOperation (.other 3)) := by decide

/-! ### Witnesses: the hypotheses of each statement can be met -/

theorem witness_DecodeOfEncodeIsIdentity : opcodes.Valid := by decide

theorem witness_DecodedBytesAreTheEncodingUpToReservedBits :
    opcodes.Valid ∧ decode opcodes [0x82#8, 0xFF#8, 0xFF#8, 0x01#8] = .ok (.ldi 7 0xFF#8, [0x01#8]) := by decide

theorem witness_OpcodeFieldsMatchTheHandler :
    opcodes.Valid ∧ (∀ ra, Instr.hlt ≠ .call ra) ∧ Instr.hlt ≠ .ret := by decide

theorem witness_ThereAre247UnsupportedOpcodes : OpcodeMap.Valid { opcodes with add := 0x80#8 } := by decide

theorem witness_OpcodeDecoderMatchesTheWholeByte : opcodes.Valid ∧ opcodes.byte .ret = 0x11#8 := by decide

theorem witness_ReadReturnsTheLatestWrite : Memory.wf [(0, 0x82#8), (0xFF, 0x01#8)] = true := by decide

theorem witness_MemoriesThatReadAlikeAreEqual :
    ∃ m m' : Memory, Memory.wf m = true ∧ Memory.wf m' = true ∧ ∀ a : Byte, Memory.read m a = Memory.read m' a :=
  ⟨[(0xFF, 0x01#8)], [(0xFF, 0x01#8)], by decide, by decide, fun _ => rfl⟩

theorem witness_LaunchStateIsTheImageFromAddressZero :
    (List.replicate 256 0x01#8).length ≤ 256 ∧ 256 < (List.replicate 257 0x01#8).length := by
  simp [-List.reduceReplicate]

theorem witness_LaunchMeetsTheInvariant : ∃ s, launch [0x82#8, 0x00#8, 0x08#8] = some s := ⟨_, rfl⟩

theorem witness_StepRunsTheDecodedInstruction :
    atLdi.running = true ∧
      decode opcodes [Memory.read atLdi.mem atLdi.pc, Memory.read atLdi.mem (atLdi.pc + 1#8),
        Memory.read atLdi.mem (atLdi.pc + 2#8)] = .ok (.ldi 1 9#8, []) := by decide

theorem witness_StepsExactlyWhileRunning :
    (∃ t, step atLdi = .next t) ∧ atLdi.running = true ∧ State.reset.running = false := ⟨⟨_, rfl⟩, rfl, rfl⟩

theorem witness_FetchLatchesTheByteAtPc : ∃ t, step atLdi = .next t := ⟨_, rfl⟩

theorem witness_DecodeDispatchesOrRecordsTheError :
    (atZero.running = true ∧ ∀ k, opcodes.byte k ≠ Memory.read atZero.mem atZero.pc) ∧
      atLdi.running = true ∧ opcodes.byte .ldi = Memory.read atLdi.mem atLdi.pc :=
  ⟨⟨rfl, fun k => by cases k <;> decide⟩, rfl, rfl⟩

/-- One witness for each kind the clauses name. -/
theorem witness_PcAdvancesByOperandCountPlusOne : ∀ k ∈ [OpKind.ldi, .add, .mul, .prn, .push, .pop, .hlt],
    (atOpcode (opcodes.byte k) 0xF4#8).running = true ∧
    opcodes.byte k = Memory.read (atOpcode (opcodes.byte k) 0xF4#8).mem (atOpcode (opcodes.byte k) 0xF4#8).pc ∧
    setsPc (Memory.read (atOpcode (opcodes.byte k) 0xF4#8).mem (atOpcode (opcodes.byte k) 0xF4#8).pc) = false := by
  decide

/-- A step of each branch: a load request (CALL, RET), none (LDI), and a fault. -/
theorem witness_NextPcIsWhatThePcControllerSelects :
    opcodes.Valid ∧ (∃ t, stepWith opcodes (atOpcode opcodes.call 0xF4#8) = .next t) ∧
    (∃ t, stepWith opcodes (atOpcode opcodes.ret 0xF4#8) = .next t) ∧
    (atOpcode opcodes.call 0xF4#8).fetch.instr opcodes = some (.call 1) ∧
    (atOpcode opcodes.ret 0xF4#8).fetch.instr opcodes = some .ret ∧
    (∃ t, stepWith opcodes atZero = .next t) ∧ atZero.fetch.instr opcodes = none :=
  ⟨by decide, ⟨_, rfl⟩, ⟨_, rfl⟩, by decide, by decide, ⟨_, rfl⟩, by decide⟩

/-- A step that clears the run flag by HLT, one by an error, and one that leaves it. -/
theorem witness_RunFlagIsClearedOnlyByHaltOrFatalError :
    (∃ t, step (atOpcode opcodes.hlt 0xF4#8) = .next t ∧ t.running = false) ∧
    (∃ t, step atZero = .next t ∧ t.running = false) ∧ (∃ t, step atLdi = .next t ∧ t.running = true) ∧
    ∃ t, State.reset.start = some t :=
  ⟨⟨_, rfl, rfl⟩, ⟨_, rfl, rfl⟩, ⟨_, rfl, rfl⟩, ⟨_, rfl⟩⟩

theorem witness_RunningImpliesNoFault :
    (∃ s, launch [0x01#8] = some s) ∧
    ((atLdi.running = true → atLdi.fault = none) ∧ ∃ t, step atLdi = .next t ∧ t.running = true) ∧
    (∃ t, step atZero = .next t ∧ t.fault ≠ none) ∧
    (atOpcode opcodes.hlt 0#8).running = true ∧ (atOpcode opcodes.hlt 0#8).fault = none ∧
    Memory.read (atOpcode opcodes.hlt 0#8).mem (atOpcode opcodes.hlt 0#8).pc = opcodes.hlt :=
  ⟨⟨_, rfl⟩, ⟨fun _ => rfl, _, rfl, rfl⟩, ⟨_, rfl, Option.some_ne_none _⟩, rfl, rfl, rfl⟩

theorem witness_EveryStepKeepsTheInvariant :
    (atLdi.Inv ∧ ∃ t, step atLdi = .next t) ∧ (atZero.Inv ∧ ∃ t, step atZero = .next t) ∧
    atLdi.InvWith opcodes ∧ ∃ t, stepWith opcodes atLdi = .next t :=
  ⟨⟨⟨by decide, trivial⟩, _, rfl⟩, ⟨⟨by decide, trivial⟩, _, rfl⟩, ⟨by decide, trivial⟩, _, rfl⟩

/-- Both ends. -/
theorem witness_RunEndsByHaltOrByAFatalError :
    ((atOpcode opcodes.hlt 0xF4#8).Inv ∧ ∃ t, step (atOpcode opcodes.hlt 0xF4#8) = .next t ∧ t.running = false) ∧
    atZero.Inv ∧ ∃ t, step atZero = .next t ∧ t.running = false :=
  ⟨⟨⟨by decide, trivial⟩, _, rfl, rfl⟩, ⟨by decide, trivial⟩, _, rfl, rfl⟩

/-- The state after an unsupported opcode: it meets the invariant and has a record. -/
theorem witness_RecordedFaultIsFinal : ∃ t, step atZero = .next t ∧ t.Inv ∧
    t.fault = some (.unsupportedOpcode 0x00#8 0x00#8) :=
  ⟨_, rfl, ⟨by decide, rfl, rfl, rfl, rfl, by decide⟩, rfl⟩

theorem witness_UnsupportedAluTagIsFatalAndNeverFromAProgram :
    (AluTag.other 0 ≠ .add ∧ AluTag.other 0 ≠ .mul) ∧
    ∃ (s t : State) (tag : AluTag), step s = .next t ∧ t.fault = some (.unsupportedALUOperation tag) :=
  ⟨by decide, { atLdi with fault := some (.unsupportedALUOperation (.other 0)) }, _, .other 0, rfl, rfl⟩

theorem witness_OnlyPrnAppendsToTheOutput :
    ((∃ t, step (atOpcode opcodes.prn 0xF4#8) = .next t) ∧
      Memory.read (atOpcode opcodes.prn 0xF4#8).mem (atOpcode opcodes.prn 0xF4#8).pc = opcodes.prn) ∧
    (∃ t, step atLdi = .next t) ∧ Memory.read atLdi.mem atLdi.pc ≠ opcodes.prn :=
  ⟨⟨⟨_, rfl⟩, rfl⟩, ⟨_, rfl⟩, by decide⟩

theorem witness_OutputIsNeverReadBack :
    ∃ t, step (atOpcode opcodes.prn 0xF4#8) = .next t ∧ t.out = [0x40#8] := ⟨_, rfl, by decide⟩

/-- A step with a write, a step with a stack read, and an unsupported opcode. -/
theorem witness_MemoryIsWhatTheTransactionsLeave :
    opcodes.Valid ∧ ((∃ t, stepWith opcodes (atOpcode opcodes.push 0xF4#8) = .next t) ∧
      opcodes.byte .push = Memory.read (atOpcode opcodes.push 0xF4#8).mem (atOpcode opcodes.push 0xF4#8).pc ∧
      (atOpcode opcodes.push 0xF4#8).transactions opcodes =
        [.read 0x20#8 0x45#8, .read 0x21#8 0x01#8, .write 0xF3#8 0x40#8]) ∧
    ((∃ t, stepWith opcodes (atOpcode opcodes.ret 0x20#8) = .next t) ∧
      (atOpcode opcodes.ret 0x20#8).transactions opcodes = [.read 0x20#8 0x11#8, .read 0x20#8 0x11#8]) ∧
    (∃ t, stepWith opcodes atZero = .next t) ∧ ∀ k, opcodes.byte k ≠ Memory.read atZero.mem atZero.pc :=
  ⟨by decide, ⟨⟨_, rfl⟩, rfl, by decide⟩, ⟨⟨_, rfl⟩, by decide⟩, ⟨_, rfl⟩, fun k => by cases k <;> decide⟩

/-- The address next to the one PUSH stores to, and any address on an instruction that stores nothing. -/
theorem witness_MemoryChangesOnlyAtThePushAddress :
    ((∃ t, step (atOpcode opcodes.push 0xF4#8) = .next t) ∧
      (0xF4#8 ≠ (atOpcode opcodes.push 0xF4#8).pushAddr ∧ 0xF2#8 ≠ (atOpcode opcodes.push 0xF4#8).pushAddr)) ∧
    (∃ t, step atLdi = .next t) ∧
      Memory.read atLdi.mem atLdi.pc ≠ opcodes.push ∧ Memory.read atLdi.mem atLdi.pc ≠ opcodes.call :=
  ⟨⟨⟨_, rfl⟩, by decide, by decide⟩, ⟨_, rfl⟩, by decide, by decide⟩

theorem witness_OnlyTheNamedRegistersChange :
    (∃ t, exec (.pop 1) atLdi = .next t) ∧ (2 : RegNum) ∉ writtenRegs (.pop 1) ∧ (7 : RegNum) ∉ writtenRegs (.ldi 6 0#8) :=
  ⟨⟨_, rfl⟩, by decide, by decide⟩

/-- A register that POP writes and does not read, and one that it neither reads nor writes. -/
theorem witness_OnlyTheNamedRegistersAreRead :
    (∃ t, exec (.pop 1) atLdi = .next t) ∧ (1 : RegNum) ∉ readRegs (.pop 1) ∧ (1 : RegNum) ∈ writtenRegs (.pop 1) ∧
      (6 : RegNum) ∉ readRegs (.pop 1) ∧ (6 : RegNum) ∉ writtenRegs (.pop 1) :=
  ⟨⟨_, rfl⟩, by decide, by decide, by decide, by decide⟩

theorem witness_StatusShowsTheFatalError :
    atZero.running = true ∧ ∀ k, opcodes.byte k ≠ Memory.read atZero.mem atZero.pc :=
  ⟨rfl, fun k => by cases k <;> decide⟩

/-- A map other than the spec's defaults, in a machine at its ADD; a byte it does not have; a stopped machine. -/
theorem witness_EveryValidOpcodeMapHasItsStep :
    otherMap.Valid ∧ otherMap ≠ opcodes ∧
    ((atOpcode 0xA7#8 0xF4#8).running = true ∧
      decode otherMap [Memory.read (atOpcode 0xA7#8 0xF4#8).mem (atOpcode 0xA7#8 0xF4#8).pc,
        Memory.read (atOpcode 0xA7#8 0xF4#8).mem ((atOpcode 0xA7#8 0xF4#8).pc + 1#8),
        Memory.read (atOpcode 0xA7#8 0xF4#8).mem ((atOpcode 0xA7#8 0xF4#8).pc + 2#8)] = .ok (.add 1 0, [])) ∧
    (atZero.running = true ∧ ∀ k, otherMap.byte k ≠ Memory.read atZero.mem atZero.pc) ∧
    State.reset.running = false :=
  ⟨by decide, by decide, ⟨rfl, by decide⟩, ⟨rfl, fun k => by cases k <;> decide⟩, rfl⟩

/-- A launched image, whose run ends, at its first step and after it. -/
theorem witness_RunEndsOnceInOneOfTwoWaysOrNever :
    ∃ s, launch [0x01#8] = some s ∧ (runFor opcodes 1 s).running = false ∧
      RunEndsIn opcodes [0x01#8] (runFor opcodes 1 s) ∧ ∃ t, RunEndsIn opcodes [] t :=
  ⟨_, rfl, rfl, ⟨_, 1, rfl, rfl, rfl⟩, _, _, 1, rfl, rfl, rfl⟩

theorem witness_SomeRunDoesNotEnd : opcodes.Valid ∧ otherMap.Valid := by decide

/-- The largest image there is, and a launched one. -/
theorem witness_NoPathFromTheEndBackToARun :
    (List.replicate 256 0x01#8).length ≤ 256 ∧ opcodes.Valid ∧ ∃ s, launch [0x01#8] = some s :=
  ⟨by simp [-List.reduceReplicate], by decide, _, rfl⟩

theorem witness_EveryLaunchedRunMeetsTheInvariant : ∃ s, launch [0x01#8] = some s := ⟨_, rfl⟩

theorem witness_LdiLoadsTheImmediate : opcodes.Valid ∧ (latched opcodes.ldi).ir = opcodes.ldi := by decide

theorem witness_PrnEmitsTheRegister : opcodes.Valid ∧ (latched opcodes.prn).ir = opcodes.prn := by decide

theorem witness_HltClearsTheRunFlag : opcodes.Valid ∧ (latched opcodes.hlt).ir = opcodes.hlt := by decide

theorem witness_AddWritesTheSum : opcodes.Valid ∧ (latched opcodes.add).ir = opcodes.add := by decide

theorem witness_MulWritesTheProduct : opcodes.Valid ∧ (latched opcodes.mul).ir = opcodes.mul := by decide

/-- With a canonical memory, and a byte beside the address stored to. -/
theorem witness_PushStoresAtTheDecrementedPointer :
    opcodes.Valid ∧ (latched opcodes.push).ir = opcodes.push ∧ Memory.wf (latched opcodes.push).mem = true ∧
      (latched opcodes.push).pushAddr = 0xF3#8 ∧ (0xF4#8 : Byte) ≠ 0xF3#8 := by decide

/-- For a register other than R7 and for R7, and a third register. -/
theorem witness_PopLoadsAndIncrementsThePointer :
    opcodes.Valid ∧ (latched opcodes.pop).ir = opcodes.pop ∧ (6 : RegNum) ≠ 7 ∧ (7 : RegNum) = 7 ∧ (5 : RegNum) ≠ 6 ∧
      (5 : RegNum) ≠ 7 := by decide

theorem witness_CallPushesTheReturnAddressAndJumps :
    opcodes.Valid ∧ (latched opcodes.call).ir = opcodes.call ∧ Memory.wf (latched opcodes.call).mem = true ∧
      (latched opcodes.call).pushAddr = 0xF3#8 ∧ (0xF2#8 : Byte) ≠ 0xF3#8 := by decide

theorem witness_RetPopsIntoPc : opcodes.Valid ∧ (latched opcodes.ret).ir = opcodes.ret := by decide

theorem witness_PushThenPopRestoresTheRegisters :
    opcodes.Valid ∧ (latched opcodes.push).ir = opcodes.push ∧ Memory.wf (latched opcodes.push).mem = true := by decide

/-- The state the CALL leaves, with RET latched, meets the conditions on the later state. -/
theorem witness_ReturnResumesAfterTheCall :
    opcodes.Valid ∧ (latched opcodes.call).ir = opcodes.call ∧ Memory.wf (latched opcodes.call).mem = true ∧
    ∃ t, exec (.call 1) (latched opcodes.call) = .next t ∧ (t.setIr opcodes.ret).ir = opcodes.ret ∧
      (t.setIr opcodes.ret).reg 7 = t.reg 7 ∧
      Memory.read (t.setIr opcodes.ret).mem (t.reg 7) = Memory.read t.mem (t.reg 7) :=
  ⟨by decide, rfl, by decide, _, rfl, rfl, rfl, rfl⟩

/-- As many pushes as there are cells, and the first and the last place. -/
theorem witness_PushedBytesStandInReverseOrder :
    Memory.wf atLdi.mem = true ∧ (List.replicate 256 0xAA#8).length ≤ 256 ∧
      [1#8, 2#8, 3#8].reverse[0]? = some 3#8 ∧ [1#8, 2#8, 3#8].reverse[2]? = some 1#8 :=
  ⟨by decide, by simp [-List.reduceReplicate], by decide, by decide⟩

theorem witness_PushedByteIsFetchedByTheNextStep :
    (atOpcode opcodes.push 0x23#8).running = true ∧ Memory.wf (atOpcode opcodes.push 0x23#8).mem = true ∧
    Memory.read (atOpcode opcodes.push 0x23#8).mem (atOpcode opcodes.push 0x23#8).pc = opcodes.push ∧
    regOf (Memory.read (atOpcode opcodes.push 0x23#8).mem ((atOpcode opcodes.push 0x23#8).pc + 1#8)) = 1 ∧
    (1 : RegNum) ≠ 7 ∧
    (atOpcode opcodes.push 0x23#8).reg 7 - 1#8 = (atOpcode opcodes.push 0x23#8).pc + 2#8 := by decide

/-- A CALL whose push lands on its operand byte, and a PUSH that lands on its opcode byte. -/
theorem witness_OwnBytesAreReadBeforeTheStore :
    ((atOpcode opcodes.call 0x22#8).running = true ∧ Memory.wf (atOpcode opcodes.call 0x22#8).mem = true ∧
      Memory.read (atOpcode opcodes.call 0x22#8).mem (atOpcode opcodes.call 0x22#8).pc = opcodes.call ∧
      regOf (Memory.read (atOpcode opcodes.call 0x22#8).mem ((atOpcode opcodes.call 0x22#8).pc + 1#8)) = 1 ∧
      (atOpcode opcodes.call 0x22#8).reg 7 - 1#8 = (atOpcode opcodes.call 0x22#8).pc + 1#8) ∧
    (atOpcode opcodes.push 0x21#8).running = true ∧ Memory.wf (atOpcode opcodes.push 0x21#8).mem = true ∧
      Memory.read (atOpcode opcodes.push 0x21#8).mem (atOpcode opcodes.push 0x21#8).pc = opcodes.push ∧
      regOf (Memory.read (atOpcode opcodes.push 0x21#8).mem ((atOpcode opcodes.push 0x21#8).pc + 1#8)) = 1 ∧
      (atOpcode opcodes.push 0x21#8).reg 7 - 1#8 = (atOpcode opcodes.push 0x21#8).pc := by decide

end Sys2Proof.Tests
end

