-- ==== Sys2Proof/Proofs/Memory.lean ====
section
/-! PROOFS. 20_memory.md: what an address reads as after a sequence of writes. -/

namespace Sys2Proof.Machine

/-- A sequence of writes keeps the canonical form. -/
theorem foldl_write_wf {m : Memory} (writes : List (Byte × Byte)) (hm : Memory.wf m = true) :
    Memory.wf (writes.foldl (fun m w => Memory.write m w.1 w.2) m) = true :=
  writes.foldlRecOn (motive := fun m => Memory.wf m = true) _ hm fun _ h w _ => write_wf w.1 w.2 h

/-- Settles O7, by induction on the sequence from its end: the last write decides the read when it is to the address
read, and is invisible to it otherwise. -/
theorem readReturnsTheLatestWrite : Obligations.ReadReturnsTheLatestWrite := by
  intro m writes a hm
  induction writes using List.reverseRecOn with
  | nil => rfl
  | append_singleton ws w ih =>
    rw [List.foldl_concat, List.reverse_concat]
    by_cases hw : w.1 = a
    · subst hw
      simp [read_write_same _ _ (foldl_write_wf ws hm)]
    · rw [read_write_ne _ _ (Ne.symm hw), ih, List.find?_cons_of_neg (by simpa using hw)]

end Sys2Proof.Machine
end

/-! PROOFS. 40_engine_cycle.md: the latched byte (R81) and the run flag against the fault record (R88). -/

namespace Sys2Proof.Machine

/-! ### What no handler touches -/

@[simp] theorem jumpReg_ir (s : State) (ra : RegNum) : (s.jumpReg ra).ir = s.ir := rfl
@[simp] theorem jumpReg_fault (s : State) (ra : RegNum) : (s.jumpReg ra).fault = s.fault := rfl

/-- A handler writes neither `IR` nor the fault record: `IR` is the fetch's (R81), the record the decode's (R82). -/
theorem exec_keeps_ir_fault {i : Instr} {s t : State} (h : exec i s = .next t) : t.ir = s.ir ∧ t.fault = s.fault := by
  rw [exec_cases] at h
  injection h with h
  subst h
  cases i <;> simp

/-! ### The fetch (R81) -/

/-- After every step, under any opcode map, `IR` holds the byte fetched. -/
theorem stepWith_ir {m : OpcodeMap} {s t : State} (h : stepWith m s = .next t) : t.ir = s.load s.pc := by
  obtain ⟨-, ⟨-, rfl⟩ | ⟨i, -, hexec⟩⟩ := stepWith_cases h
  · simp
  · simpa using (exec_keeps_ir_fault hexec).1

/-- At a kind's opcode byte the machine reads that kind's instruction (R82, R83). -/
theorem fetch_instr_of_byte {m : OpcodeMap} (hm : m.Valid) {s : State} {k : OpKind} (hk : s.load s.pc = m.byte k) :
    s.fetch.instr m = some (instrOf k s.operandA s.operandB) := by
  simp [State.instr, State.operandA, State.operandB, hk, decodeOpcode_byte hm]

/-- Settles O17: the first part is the fetch's definition, the second is `stepWith_ir` for this machine's map. -/
theorem fetchLatchesTheByteAtPc : Obligations.FetchLatchesTheByteAtPc :=
  ⟨fun _ => rfl, fun _ _ => stepWith_ir⟩

/-! ### The run flag and the fault record (R88) -/

/-- A launched machine runs without a record. -/
theorem launch_running_fault {image : List Byte} {s : State} (h : launch image = some s) :
    s.running = true ∧ s.fault = none := by
  rw [launch_eq] at h
  split at h
  next => injection h with h; subst h; exact ⟨rfl, rfl⟩
  next => cases h

/-- A step that leaves the machine running leaves the fault record alone: the only rule that writes it, the
unsupported opcode, also clears `running` (R82). -/
theorem stepWith_fault_of_running {m : OpcodeMap} {s t : State} (h : stepWith m s = .next t)
    (hrun : t.running = true) : t.fault = s.fault := by
  obtain ⟨-, ⟨-, rfl⟩ | ⟨i, -, hexec⟩⟩ := stepWith_cases h
  · simp at hrun
  · simpa using (exec_keeps_ir_fault hexec).2

/-- Every step keeps "running implies no record". -/
theorem stepWith_keeps_running_no_fault {m : OpcodeMap} {s t : State} (hs : s.running = true → s.fault = none)
    (h : stepWith m s = .next t) (hrun : t.running = true) : t.fault = none := by
  obtain ⟨hsrun, -⟩ := stepWith_cases h
  rw [stepWith_fault_of_running h hrun, hs hsrun]

/-- The step on HLT, under any valid opcode map (R102). -/
theorem stepWith_hlt {m : OpcodeMap} (hm : m.Valid) {s : State} (hrun : s.running = true)
    (hop : s.load s.pc = m.hlt) : stepWith m s = .next s.fetch.halt.advance := by
  rw [stepWith_supported hrun (fetch_instr_of_byte hm (k := .hlt) hop)]
  exact exec_hlt _

/-- Settles O22: the launch and the step each keep the invariant, and HLT stops the machine without a record. -/
theorem runningImpliesNoFault : Obligations.RunningImpliesNoFault := by
  refine ⟨fun _ _ => launch_running_fault, fun s t hs hstep => ?_, fun s hrun hfault hop => ?_⟩
  · have hkeep : t.running = true → t.fault = none := stepWith_keeps_running_no_fault hs hstep
    exact ⟨hkeep, fun hrec => Bool.eq_false_iff.2 (mt hkeep hrec)⟩
  · exact ⟨_, stepWith_hlt opcodes_valid hrun hop, by simp, by simpa using hfault⟩

end Sys2Proof.Machine

/-! PROOFS. 42_alu.md: ADD and MUL are commutative on values, and `x[ra]` alone receives the result (R115). -/

namespace Sys2Proof.Machine

theorem alu_add_comm (p q : Byte) : alu .add p q = alu .add q p := by
  simp only [alu, Nat.add_comm]

theorem alu_mul_comm (p q : Byte) : alu .mul p q = alu .mul q p := by
  simp only [alu, Nat.mul_comm]

/-- Where the ALU answers the same value for both orders of the operands, the instruction and the one with its
registers exchanged put that value each in its own first register, and change no other. -/
theorem aluApply_swap {op : AluTag} {ra rb : RegNum} {s : State} {v : Byte}
    (hv : alu op (s.reg ra) (s.reg rb) = .ok v) (hswap : alu op (s.reg rb) (s.reg ra) = .ok v) :
    ∃ t u, aluApply op ra rb s = .next t ∧ aluApply op rb ra s = .next u ∧ t.reg ra = u.reg rb ∧
      (∀ r, r ≠ ra → t.reg r = s.reg r) ∧ ∀ r, r ≠ rb → u.reg r = s.reg r := by
  refine ⟨_, _, aluApply_ok hv, aluApply_ok hswap, ?_, fun r hr => ?_, fun r hr => ?_⟩
  · simp
  · simp [hr]
  · simp [hr]

/-- Settles O44: the values commute as the sum and the product of numbers do, and `aluApply_swap` carries that over
to the two instructions. -/
theorem aluIsCommutativeOnValues : Obligations.AluIsCommutativeOnValues :=
  ⟨fun p q => ⟨alu_add_comm p q, alu_mul_comm p q⟩, fun _ _ _ =>
    ⟨aluApply_swap rfl (alu_add_comm _ _), aluApply_swap rfl (alu_mul_comm _ _)⟩⟩

end Sys2Proof.Machine

/-! PROOFS. 30_encoding.md: what decodes, what it decodes to, and the bit fields of the opcode byte (R60 to R71). -/

namespace Sys2Proof

/-! ### The opcode byte -/

/-- An answer of the Dispatch Table is a kind with that byte; this needs no valid map. -/
theorem byte_of_decodeOpcode {m : OpcodeMap} {op : Byte} {k : OpKind} (h : decodeOpcode m op = some k) :
    m.byte k = op := by
  simpa using List.find?_some h

/-! The four bytes the source prints (R65). -/

theorem ldi_of_valid {m : OpcodeMap} (hm : m.Valid) : m.ldi = 0x82#8 := hm.1
theorem prn_of_valid {m : OpcodeMap} (hm : m.Valid) : m.prn = 0x47#8 := hm.2.1
theorem hlt_of_valid {m : OpcodeMap} (hm : m.Valid) : m.hlt = 0x01#8 := hm.2.2.1
theorem mul_of_valid {m : OpcodeMap} (hm : m.Valid) : m.mul = 0xA2#8 := hm.2.2.2.1

/-- Bits 7:6 and bit 4 of a valid map's opcode byte are what the format and the handler say (R61, R62). -/
theorem opcode_fields {m : OpcodeMap} (hm : m.Valid) (k : OpKind) :
    nops (m.byte k) = k.format.operandCount ∧ setsPc (m.byte k) = k.setsPc := by
  have ⟨_, _, _, _, hadd, hpush, hpop, hcall, hret, _⟩ := hm
  cases k with
  | ldi => rw [show m.byte .ldi = 0x82#8 from ldi_of_valid hm]; decide
  | prn => rw [show m.byte .prn = 0x47#8 from prn_of_valid hm]; decide
  | hlt => rw [show m.byte .hlt = 0x01#8 from hlt_of_valid hm]; decide
  | mul => rw [show m.byte .mul = 0xA2#8 from mul_of_valid hm]; decide
  | add => exact hadd
  | push => exact hpush
  | pop => exact hpop
  | call => exact hcall
  | ret => exact hret

theorem nops_byte {m : OpcodeMap} (hm : m.Valid) (k : OpKind) : nops (m.byte k) = k.format.operandCount :=
  (opcode_fields hm k).1

theorem setsPc_byte {m : OpcodeMap} (hm : m.Valid) (k : OpKind) : setsPc (m.byte k) = k.setsPc :=
  (opcode_fields hm k).2

theorem nops_eq_div (op : Byte) : nops op = op.toNat / 64 := by
  simp [nops, Nat.shiftRight_eq_div_pow]

/-- The kinds for which the decoder yields the ALU's tag. -/
theorem aluTagOf_eq_some {k : OpKind} {tag : AluTag} :
    aluTagOf k = some tag ↔ (k = .add ∧ tag = .add) ∨ (k = .mul ∧ tag = .mul) := by
  cases k <;> simp [aluTagOf, eq_comm]

/-- The decoder's ALU tag is ADD's or MUL's, each exactly at its own byte (R89, R110). -/
theorem opcodeDecoder_aluOp_eq_some {m : OpcodeMap} (hm : m.Valid) {ir : Byte} {tag : AluTag} :
    (opcodeDecoder m ir).aluOp = some tag ↔ (ir = m.add ∧ tag = .add) ∨ (ir = m.mul ∧ tag = .mul) := by
  have hadd : decodeOpcode m ir = some .add ↔ ir = m.add := (decodeOpcode_eq_some hm).trans eq_comm
  have hmul : decodeOpcode m ir = some .mul ↔ ir = m.mul := (decodeOpcode_eq_some hm).trans eq_comm
  simp only [opcodeDecoder, Option.bind_eq_some_iff, aluTagOf_eq_some]
  constructor
  · rintro ⟨k, hk, ⟨rfl, rfl⟩ | ⟨rfl, rfl⟩⟩
    · exact .inl ⟨hadd.1 hk, rfl⟩
    · exact .inr ⟨hmul.1 hk, rfl⟩
  · rintro (⟨h, rfl⟩ | ⟨h, rfl⟩)
    · exact ⟨_, hadd.2 h, .inl ⟨rfl, rfl⟩⟩
    · exact ⟨_, hmul.2 h, .inr ⟨rfl, rfl⟩⟩

/-- Settles O5: every output is read off the Dispatch Table's `decodeOpcode_eq_some` or is a bit field of the byte. -/
theorem opcodeDecoderMatchesTheWholeByte : Obligations.OpcodeDecoderMatchesTheWholeByte := by
  intro m hm ir
  have hkind : ∀ k, decodeOpcode m ir = some k ↔ ir = m.byte k := fun k =>
    (decodeOpcode_eq_some hm).trans eq_comm
  refine ⟨?_, hkind, nops_eq_div ir, rfl, ?_, ?_, fun n => ?_⟩
  · simp only [opcodeDecoder, Option.isSome_iff_exists, hkind]
  · simp [opcodeDecoder_aluOp_eq_some hm]
  · simp [opcodeDecoder_aluOp_eq_some hm]
  · simp [opcodeDecoder_aluOp_eq_some hm]

/-- The opcode bytes of a valid map as numbers, all different. -/
theorem nodup_byte_toNat {m : OpcodeMap} (hm : m.Valid) :
    (OpKind.all.map fun k => (m.byte k).toNat).Nodup :=
  List.Nodup.map_on (fun _ _ _ _ h => byte_inj hm (BitVec.eq_of_toNat_eq h)) (by decide)

/-- The numbers of the supported bytes are the nine opcode bytes, in some order. -/
theorem supported_perm {m : OpcodeMap} (hm : m.Valid) :
    ((List.range 256).filter fun n => (decodeOpcode m (BitVec.ofNat 8 n)).isSome).Perm
      (OpKind.all.map fun k => (m.byte k).toNat) := by
  rw [List.perm_ext_iff_of_nodup (List.nodup_range.filter _) (nodup_byte_toNat hm)]
  intro n
  simp only [List.mem_filter, List.mem_range, Option.isSome_iff_exists, decodeOpcode_eq_some hm, List.mem_map]
  constructor
  · rintro ⟨hn, k, hk⟩
    exact ⟨k, mem_all k, by simp [hk, Nat.mod_eq_of_lt hn]⟩
  · rintro ⟨k, -, rfl⟩
    exact ⟨(m.byte k).isLt, k, by simp⟩

/-- Settles O4: of the 256 bytes those with an entry are the nine opcode bytes (`supported_perm`), so the rest are
247. -/
theorem thereAre247UnsupportedOpcodes : Obligations.ThereAre247UnsupportedOpcodes := by
  intro m hm
  have hsome := (supported_perm hm).length_eq
  have hall := List.length_eq_length_filter_add (l := List.range 256)
    (fun n => (decodeOpcode m (BitVec.ofNat 8 n)).isSome)
  simp only [Option.not_isSome] at hall
  simp only [List.length_range, hsome, List.length_map, OpKind.all, List.length_cons, List.length_nil] at hall
  omega

/-! ### Instructions and their bytes -/

@[simp] theorem kind_instrOf (k : OpKind) (a b : Byte) : (instrOf k a b).kind = k := by cases k <;> rfl

/-- An instruction has as many operand bytes as its format says. -/
theorem operandBytes_length (i : Instr) : (operandBytes i).length = i.kind.format.operandCount := by
  cases i <;> rfl

/-- An instruction is that of its kind with its own operand bytes. -/
theorem instrOf_operandBytes (i : Instr) :
    instrOf i.kind ((operandBytes i).getD 0 0) ((operandBytes i).getD 1 0) = i := by
  cases i <;> simp [instrOf, operandBytes, Instr.kind]

/-- Operand bytes without their reserved bits are the encoder's for the instruction they are read as (R64, R71). -/
theorem clearReserved_eq_operandBytes {k : OpKind} {ops : List Byte} (h : ops.length = k.format.operandCount) :
    clearReserved k.format ops = operandBytes (instrOf k (ops.getD 0 0) (ops.getD 1 0)) := by
  cases k with
  | hlt | ret =>
    obtain rfl := List.eq_nil_of_length_eq_zero h
    rfl
  | prn | push | pop | call =>
    obtain ⟨a, rfl⟩ := List.length_eq_one_iff.1 h
    exact congrArg (fun x => [x]) (regByte_regOf a).symm
  | add | mul =>
    obtain ⟨a, b, rfl⟩ := List.length_eq_two.1 h
    exact congrArg₂ (fun x y => [x, y]) (regByte_regOf a).symm (regByte_regOf b).symm
  | ldi =>
    obtain ⟨a, b, rfl⟩ := List.length_eq_two.1 h
    exact congrArg (fun x => [x, b]) (regByte_regOf a).symm

/-! ### The decoder -/

/-- At an opcode byte the decoder takes as many operand bytes as the format has, and leaves the rest (R60, R64). -/
theorem decode_byte_append {m : OpcodeMap} (hm : m.Valid) {k : OpKind} {ops : List Byte}
    (h : ops.length = k.format.operandCount) (rest : List Byte) :
    decode m (m.byte k :: (ops ++ rest)) = .ok (instrOf k (ops.getD 0 0) (ops.getD 1 0), rest) := by
  simp only [decode, decodeOpcode_byte hm]
  cases hf : k.format with
  | z =>
    obtain rfl := List.eq_nil_of_length_eq_zero (h.trans (congrArg _ hf))
    rfl
  | r =>
    obtain ⟨a, rfl⟩ := List.length_eq_one_iff.1 (h.trans (congrArg _ hf))
    rfl
  | rr | ri =>
    obtain ⟨a, b, rfl⟩ := List.length_eq_two.1 (h.trans (congrArg _ hf))
    rfl

/-- Whatever decodes begins with a kind's opcode byte and as many operand bytes as the kind's format has; this needs
no valid map. -/
theorem decode_eq_ok {m : OpcodeMap} {bs rest : List Byte} {i : Instr} (h : decode m bs = .ok (i, rest)) :
    ∃ k ops, decodeOpcode m (m.byte k) = some k ∧ bs = m.byte k :: (ops ++ rest) ∧
      ops.length = k.format.operandCount ∧ i = instrOf k (ops.getD 0 0) (ops.getD 1 0) := by
  cases bs with
  | nil => cases h
  | cons op tail =>
    cases hk : decodeOpcode m op with
    | none => simp [decode, hk] at h
    | some k =>
      obtain rfl := byte_of_decodeOpcode hk
      simp only [decode, hk] at h
      split at h
      next hf => cases h; exact ⟨k, [], hk, rfl, by rw [hf]; rfl, rfl⟩
      next a _ hf => cases h; exact ⟨k, [a], hk, rfl, by rw [hf]; rfl, rfl⟩
      next a b _ hf => cases h; exact ⟨k, [a, b], hk, rfl, by rw [hf]; rfl, rfl⟩
      next a b _ hf => cases h; exact ⟨k, [a, b], hk, rfl, by rw [hf]; rfl, rfl⟩
      next => cases h

/-- Settles O1: an encoding is the opcode byte and the operand bytes (`decode_byte_append`), and the operand bytes are
read back as the instruction (`instrOf_operandBytes`). -/
theorem decodeOfEncodeIsIdentity : Obligations.DecodeOfEncodeIsIdentity := by
  intro m hm i rest
  have h := decode_byte_append hm (operandBytes_length i) rest
  rwa [instrOf_operandBytes] at h

/-- Settles O2: `decode_eq_ok` gives the operand bytes, `clearReserved_eq_operandBytes` compares them with the
encoder's. -/
theorem decodedBytesAreTheEncodingUpToReservedBits :
    Obligations.DecodedBytesAreTheEncodingUpToReservedBits := by
  intro m hm bs i rest h
  obtain ⟨k, ops, -, hbs, hlen, rfl⟩ := decode_eq_ok h
  rw [kind_instrOf]
  exact ⟨ops, hbs, hlen.trans (nops_byte hm k).symm, clearReserved_eq_operandBytes hlen⟩

/-- Settles O6: each printed word, run through the decoder. -/
theorem sourceWordsDecodeAsPrinted : Obligations.SourceWordsDecodeAsPrinted := by
  refine ⟨?_, ?_, ?_, ?_, ?_, ?_⟩ <;> decide

end Sys2Proof

/-! PROOFS. 20_memory.md and 70_reset_and_hazards.md: the canonical form of memory, what a stored image reads as, and
the reset and launch states (R33, R74, R183). -/

namespace Sys2Proof.Machine

/-! ### The canonical form (log 9) -/

/-- A canonical memory that reads as an entry's byte at its address has an entry no later than it. -/
theorem not_wfFrom_succ_of_lookup_eq {m : Memory} {a : Nat} {v : Byte} (hv : v ≠ Memory.unlisted)
    (h : Memory.lookup m a = v) : ¬ Memory.wfFrom (a + 1) m = true := fun hm =>
  hv (h.symm.trans (lookup_below hm a.lt_succ_self))

/-- Two canonical memories that read alike at every cell are the same list, entry by entry: the first entries stand at
one address, since each memory reads as 0x00 below its own first entry. -/
theorem eq_of_lookup_eq {m m' : Memory} {lo : Nat} (hm : Memory.wfFrom lo m = true)
    (hm' : Memory.wfFrom lo m' = true)
    (h : ∀ a, a < Config.memSize → Memory.lookup m a = Memory.lookup m' a) : m = m' := by
  induction m generalizing lo m' with
  | nil =>
    cases m' with
    | nil => rfl
    | cons c' rest' =>
      obtain ⟨b, w⟩ := c'
      obtain ⟨-, hb, hw, -⟩ := (wfFrom_cons ..).1 hm'
      exact absurd ((h b hb).trans (by simp [Memory.lookup])) hw.symm
  | cons c rest ih =>
    obtain ⟨a, v⟩ := c
    obtain ⟨-, ha, hv, hrest⟩ := (wfFrom_cons ..).1 hm
    have hav : Memory.lookup ((a, v) :: rest) a = v := by simp [Memory.lookup]
    cases m' with
    | nil => exact absurd ((h a ha).symm.trans hav).symm hv
    | cons c' rest' =>
      obtain ⟨b, w⟩ := c'
      obtain ⟨-, hb, hw, hrest'⟩ := (wfFrom_cons ..).1 hm'
      have hbw : Memory.lookup ((b, w) :: rest') b = w := by simp [Memory.lookup]
      have hab : a = b := by
        rcases Nat.lt_trichotomy a b with hlt | heq | hgt
        · exact absurd ((wfFrom_cons ..).2 ⟨hlt, hb, hw, hrest'⟩)
            (not_wfFrom_succ_of_lookup_eq hv ((h a ha).symm.trans hav))
        · exact heq
        · exact absurd ((wfFrom_cons ..).2 ⟨hgt, ha, hv, hrest⟩)
            (not_wfFrom_succ_of_lookup_eq hw ((h b hb).trans hbw))
      subst hab
      have hvw : v = w := hav.symm.trans ((h a ha).trans hbw)
      have htail : rest = rest' := ih hrest hrest' fun x hx => by
        by_cases hxa : x = a
        · subst hxa
          rw [lookup_below hrest x.lt_succ_self, lookup_below hrest' x.lt_succ_self]
        · simpa [Memory.lookup, hxa] using h x hx
      rw [hvw, htail]

/-- Settles O8: `eq_of_lookup_eq` at the lowest address. -/
theorem memoriesThatReadAlikeAreEqual : Obligations.MemoriesThatReadAlikeAreEqual := by
  intro m m' hm hm' h
  refine eq_of_lookup_eq hm hm' fun a ha => ?_
  have hlt : a < 256 := ha
  simpa [Memory.read, Nat.mod_eq_of_lt hlt] using h (BitVec.ofNat 8 a)

/-! ### A stored image (R74) -/

/-- Bytes stored from `a` on: the cell `k` places after `a` holds byte `k`, and a cell past their end is as before.
With more than 256 bytes the last ones would overwrite the first. -/
theorem read_storeFrom {m : Memory} (hm : Memory.wf m = true) (a b : Byte) {vs : List Byte}
    (hlen : vs.length ≤ 256) :
    Memory.read (Memory.storeFrom m a vs) b = vs.getD (b - a).toNat (Memory.read m b) := by
  induction vs generalizing m a with
  | nil => rfl
  | cons v vs ih =>
    rw [List.length_cons] at hlen
    rw [Memory.storeFrom, ih (write_wf a v hm) _ (by omega)]
    by_cases hb : b = a
    · subst hb
      have hend : vs.length ≤ (b - (b + 1#8)).toNat := by
        rw [show b - (b + 1#8) = 255#8 by bv_omega]
        simp; omega
      rw [List.getD_eq_default _ _ hend, read_write_same _ _ hm]
      simp
    · have hsucc : (b - a).toNat = (b - (a + 1#8)).toNat + 1 := by
        bv_omega
      rw [hsucc, List.getD_cons_succ, read_write_ne _ _ hb]

/-! ### Reset and launch (R33, R183) -/

theorem reset_reg_of_ne {r : RegNum} (hr : r ≠ 7) : State.reset.reg r = 0x00#8 := by
  revert r; decide

/-- Settles O9: the reset state, field by field. -/
theorem resetLeavesTheTabledValues : Obligations.ResetLeavesTheTabledValues :=
  ⟨read_nil, fun _ => reset_reg_of_ne, rfl, rfl, rfl, rfl, rfl, rfl⟩

theorem imageOk_iff {image : List Byte} : imageOk image = true ↔ image.length ≤ 256 :=
  decide_eq_true_iff

/-- An image of at most 256 bytes has a launch state: the image from address 0 over the reset state, running. -/
theorem launch_of_length_le {image : List Byte} (h : image.length ≤ 256) : launch image =
    some { State.reset with mem := Memory.storeFrom [] Config.loadBase image, running := true } := by
  rw [launch_eq, if_pos (imageOk_iff.2 h)]

/-- A longer image has none (R75). -/
theorem launch_of_length_gt {image : List Byte} (h : 256 < image.length) : launch image = none := by
  rw [launch_eq, if_neg fun hok => absurd (imageOk_iff.1 hok) (by omega)]

/-- The memory of a launch state. -/
theorem read_launch {image : List Byte} (h : image.length ≤ 256) (a : Byte) :
    Memory.read (Memory.storeFrom [] Config.loadBase image) a = image.getD a.toNat 0x00#8 := by
  rw [read_storeFrom (by decide) _ _ h]
  simp [Config.loadBase]

theorem load_of_launch {image : List Byte} {s : State} (hlen : image.length ≤ 256) (h : launch image = some s)
    (a : Byte) : s.load a = image.getD a.toNat 0x00#8 := by
  obtain rfl := Option.some.inj ((launch_of_length_le hlen).symm.trans h)
  exact read_launch hlen a

/-- Settles O10: the launch state is the image over the reset state (`launch_of_length_le`), and its cells read as the
image (`read_launch`). -/
theorem launchStateIsTheImageFromAddressZero : Obligations.LaunchStateIsTheImageFromAddressZero := fun _ =>
  ⟨fun h => ⟨_, launch_of_length_le h, read_launch h, fun _ => reset_reg_of_ne, rfl, rfl, rfl, rfl, rfl, rfl⟩,
    launch_of_length_gt⟩

/-- Without a record the record is true of the machine. -/
theorem faultRecordTrue_of_none {s : State} {m : OpcodeMap} (h : s.fault = none) : s.FaultRecordTrue m := by
  simp [State.FaultRecordTrue, h]

/-- Settles O12: no cell is listed and there is no record. -/
theorem resetMeetsTheInvariant : Obligations.ResetMeetsTheInvariant :=
  ⟨by decide, faultRecordTrue_of_none rfl⟩

/-- Every launch state meets the invariant, under every opcode map: storing the image keeps the canonical form. -/
theorem launch_invWith {image : List Byte} {s : State} (m : OpcodeMap) (h : launch image = some s) :
    s.InvWith m := by
  refine ⟨?_, faultRecordTrue_of_none (launch_running_fault h).2⟩
  rw [launch_eq] at h
  split at h
  next => injection h with h; subst h; exact storeFrom_wf _ _ (by decide)
  next => cases h

/-- Settles O13: `launch_invWith` for this machine's map. -/
theorem launchMeetsTheInvariant : Obligations.LaunchMeetsTheInvariant := fun _ _ => launch_invWith opcodes

end Sys2Proof.Machine

/-! PROOFS. The execute phase of each instruction apart from its advance (R84, R85): what a handler does to each
field, said once, and from it the frames of the registers (R22) and the advance of `pc` (R85). -/

namespace Sys2Proof.Machine

/-! ### The execute phase -/

/-- The state a handler hands to the advance. -/
def effect (i : Instr) (s : State) : State :=
  match i with
  | .ldi ra imm => s.setReg ra imm
  | .prn ra => s.emit (s.reg ra)
  | .hlt => s.halt
  | .add ra rb => s.setReg ra (BitVec.ofNat 8 ((s.reg ra).toNat + (s.reg rb).toNat))
  | .mul ra rb => s.setReg ra (BitVec.ofNat 8 ((s.reg ra).toNat * (s.reg rb).toNat))
  | .push ra => s.push fun t => t.reg ra
  | .pop ra => (s.setReg ra (s.load s.sp)).incSp
  | .call ra => (s.push State.returnAddress).jumpReg ra
  | .ret => (s.setPc (s.load s.sp)).incSp

/-- Every instruction is its execute phase and then the advance. -/
theorem exec_eq (i : Instr) (s : State) : exec i s = .next (effect i s).advance := by cases i <;> rfl

/-- Settles O16: `exec_eq` names the next state. -/
theorem everyInstructionCompletes : Obligations.EveryInstructionCompletes := fun i s => ⟨_, exec_eq i s⟩

theorem eq_of_exec {i : Instr} {s t : State} (h : exec i s = .next t) : t = (effect i s).advance := by
  rw [exec_eq] at h
  injection h with h
  exact h.symm

@[simp] theorem jumpReg_running (s : State) (ra : RegNum) : (s.jumpReg ra).running = s.running := rfl
@[simp] theorem jumpReg_out (s : State) (ra : RegNum) : (s.jumpReg ra).out = s.out := rfl

@[simp] theorem effect_ir (i : Instr) (s : State) : (effect i s).ir = s.ir := by cases i <;> rfl
@[simp] theorem effect_fault (i : Instr) (s : State) : (effect i s).fault = s.fault := by cases i <;> rfl

/-- The output port says what a handler appends (R148). -/
theorem effect_out (i : Instr) (s : State) : (effect i s).out = s.out ++ (s.output i).toList := by
  cases i <;> simp [effect, State.output]

/-- HLT alone touches the run flag (R102). -/
theorem effect_running (i : Instr) (s : State) : (effect i s).running = if i = .hlt then false else s.running := by
  cases i <;> simp [effect]

/-- A handler sets `pc` exactly where it requests a load (R90). -/
theorem effect_pc (i : Instr) (s : State) : (effect i s).pc = (s.loadRequest i).getD s.pc := by
  cases i <;> rfl

/-- The stack transaction says what a handler does to memory (R146). -/
theorem effect_mem (i : Instr) (s : State) :
    (effect i s).mem = (s.stackTransactions i).foldl MemTransaction.apply s.mem := by
  cases i <;> rfl

/-- A load is requested exactly by the kinds whose handler sets `pc` (R61, R90). -/
theorem loadRequest_isSome (i : Instr) (s : State) : (s.loadRequest i).isSome = i.kind.setsPc := by
  cases i <;> rfl

theorem loadRequest_eq_none {i : Instr} (s : State) (h : i.kind.setsPc = false) : s.loadRequest i = none := by
  rw [← Option.not_isSome_iff_eq_none, loadRequest_isSome, h]
  decide

theorem kind_setsPc_iff {i : Instr} : i.kind.setsPc = true ↔ (∃ ra, i = .call ra) ∨ i = .ret := by
  cases i <;> simp [Instr.kind, OpKind.setsPc]

/-! ### The registers a handler writes (R22) -/

theorem effect_reg_of_not_written {i : Instr} {r : RegNum} (s : State) (hr : r ∉ writtenRegs i) :
    (effect i s).reg r = s.reg r := by
  cases i with
  | prn _ | hlt => rfl
  | ldi ra _ | add ra _ | mul ra _ => exact setReg_reg_ne _ _ (List.ne_of_not_mem_cons hr)
  | push _ | call _ | ret => exact setReg_reg_ne _ _ (List.ne_of_not_mem_cons hr)
  | pop ra =>
    obtain ⟨hra, hsp⟩ : r ≠ ra ∧ r ≠ Config.spIndex := by simpa [writtenRegs] using hr
    rw [effect, State.incSp, setReg_reg_ne _ _ hsp, setReg_reg_ne _ _ hra]

/-- Settles O32: `effect_reg_of_not_written`, and the advance writes no register. -/
theorem onlyTheNamedRegistersChange : Obligations.OnlyTheNamedRegistersChange := by
  intro i s t r h hr
  rw [eq_of_exec h, advance_reg, effect_reg_of_not_written s hr]

/-! ### The registers a handler reads (R22) -/

theorem setReg_setReg_same (s : State) (r : RegNum) (v w : Byte) : (s.setReg r v).setReg r w = s.setReg r w := by
  simp [State.setReg]

theorem setReg_comm (s : State) {r q : RegNum} (v w : Byte) (h : r ≠ q) :
    (s.setReg r v).setReg q w = (s.setReg q w).setReg r v := by
  have hval : (r : Nat) ≠ q := fun e => h (Fin.ext e)
  simp [State.setReg, Vector.set_comm _ _ hval]

theorem setReg_sp_of_ne (s : State) {r : RegNum} (v : Byte) (h : r ≠ Config.spIndex) : (s.setReg r v).sp = s.sp :=
  setReg_reg_ne _ _ h.symm

theorem decSp_setReg (s : State) {r : RegNum} (v : Byte) (h : r ≠ Config.spIndex) :
    (s.setReg r v).decSp = s.decSp.setReg r v := by
  rw [State.decSp, setReg_sp_of_ne s v h, setReg_comm s v _ h, State.decSp]

theorem incSp_setReg (s : State) {r : RegNum} (v : Byte) (h : r ≠ Config.spIndex) :
    (s.setReg r v).incSp = s.incSp.setReg r v := by
  rw [State.incSp, setReg_sp_of_ne s v h, setReg_comm s v _ h, State.incSp]

/-- A push whose value does not depend on a register leaves another value in it alone. -/
theorem push_setReg (s : State) {r : RegNum} (v : Byte) {f : State → Byte} (h : r ≠ Config.spIndex)
    (hf : f (s.decSp.setReg r v) = f s.decSp) : (s.setReg r v).push f = (s.push f).setReg r v := by
  rw [State.push, decSp_setReg s v h, hf, setReg_sp_of_ne s.decSp v h]
  rfl

/-- Another value in a register the instruction neither reads nor writes is still there after it, and all else is
the same. -/
theorem effect_setReg_of_not_written {i : Instr} {r : RegNum} (s : State) (v : Byte) (hread : r ∉ readRegs i)
    (hwritten : r ∉ writtenRegs i) : effect i (s.setReg r v) = (effect i s).setReg r v := by
  cases i with
  | hlt => rfl
  | ldi ra _ => exact setReg_comm s v _ (List.ne_of_not_mem_cons hwritten)
  | prn ra =>
    rw [effect, setReg_reg_ne s v (List.ne_of_not_mem_cons hread).symm]
    rfl
  | add ra rb | mul ra rb =>
    obtain ⟨hra, hrb⟩ : r ≠ ra ∧ r ≠ rb := by simpa [readRegs] using hread
    rw [effect, setReg_reg_ne s v hra.symm, setReg_reg_ne s v hrb.symm, setReg_comm s v _ hra, effect]
  | push ra =>
    obtain ⟨hra, hsp⟩ : r ≠ ra ∧ r ≠ Config.spIndex := by simpa [readRegs] using hread
    exact push_setReg (f := fun t => t.reg ra) s v hsp (setReg_reg_ne _ _ hra.symm)
  | pop ra =>
    obtain ⟨hra, hsp⟩ : r ≠ ra ∧ r ≠ Config.spIndex := by simpa [writtenRegs] using hwritten
    rw [effect, setReg_sp_of_ne s v hsp, setReg_comm s v _ hra, incSp_setReg _ v hsp]
    rfl
  | call ra =>
    obtain ⟨hra, hsp⟩ : r ≠ ra ∧ r ≠ Config.spIndex := by simpa [readRegs] using hread
    rw [effect, push_setReg s v hsp rfl, State.jumpReg, setReg_reg_ne _ v hra.symm]
    rfl
  | ret =>
    have hsp : r ≠ Config.spIndex := List.ne_of_not_mem_cons hread
    rw [effect, setReg_sp_of_ne s v hsp]
    exact incSp_setReg (s.setPc (s.load s.sp)) v hsp

/-- Another value in a register the instruction writes without reading it, which LDI and POP do, is overwritten. -/
theorem effect_setReg_of_written {i : Instr} {r : RegNum} (s : State) (v : Byte) (hread : r ∉ readRegs i)
    (hwritten : r ∈ writtenRegs i) : effect i (s.setReg r v) = effect i s := by
  cases i with
  | prn _ | hlt => cases hwritten
  | add _ _ | mul _ _ | push _ | call _ | ret =>
    obtain rfl := List.mem_singleton.1 hwritten
    exact absurd (by simp [readRegs]) hread
  | ldi ra imm =>
    obtain rfl := List.mem_singleton.1 hwritten
    exact setReg_setReg_same s r v imm
  | pop ra =>
    have hsp : r ≠ Config.spIndex := List.ne_of_not_mem_cons hread
    obtain rfl : r = ra := by simpa [writtenRegs, hsp] using hwritten
    rw [effect, setReg_sp_of_ne s v hsp, setReg_setReg_same]
    rfl

theorem advance_setReg (s : State) (r : RegNum) (v : Byte) : (s.setReg r v).advance = s.advance.setReg r v := by
  rw [advance_eq, advance_eq]
  rfl

/-- Settles O33: where the register is written its old value is overwritten (`effect_setReg_of_written`), where it is
not it stays beside an unchanged result (`effect_setReg_of_not_written`). -/
theorem onlyTheNamedRegistersAreRead : Obligations.OnlyTheNamedRegistersAreRead := by
  intro i s t r v hread h
  obtain rfl := eq_of_exec h
  refine ⟨_, exec_eq i _, ?_⟩
  by_cases hw : r ∈ writtenRegs i
  · rw [effect_setReg_of_written s v hread hw]
    exact ⟨fun _ _ => rfl, fun _ => rfl, fun hn => absurd hw hn, rfl, fun _ => rfl, rfl, rfl, rfl, rfl⟩
  · rw [effect_setReg_of_not_written s v hread hw, advance_setReg]
    exact ⟨fun _ hq => setReg_reg_ne _ _ hq, fun hy => absurd hy hw, fun _ => setReg_reg_same .., rfl,
      fun _ => rfl, rfl, rfl, rfl, rfl⟩

/-! ### The advance (R85) -/

/-- After an instruction that requests no load, `pc` is what bit 4 and bits 7:6 of `IR` say, whatever it holds. -/
theorem effect_advance_pc_of_not_setsPc {i : Instr} (s : State) (h : i.kind.setsPc = false) :
    (effect i s).advance.pc = if setsPc s.ir then s.pc else nextInOrder s.pc s.ir := by
  rw [advance_pc, effect_ir, effect_pc, loadRequest_eq_none s h, Option.getD_none]

/-- Under a valid map, with the instruction's own opcode in `IR`, `pc` is the loaded value or the next address in order:
bit 4 is set exactly where the handler requests a load. -/
theorem effect_advance_pc {m : OpcodeMap} (hm : m.Valid) {i : Instr} {s : State} (hir : s.ir = m.byte i.kind) :
    (effect i s).advance.pc = (s.loadRequest i).getD (nextInOrder s.pc s.ir) := by
  have hbit : setsPc s.ir = (s.loadRequest i).isSome := by rw [hir, setsPc_byte hm, loadRequest_isSome]
  rw [advance_pc, effect_ir, effect_pc, hbit]
  cases s.loadRequest i <;> rfl

/-- The next address in order after an opcode byte of a valid map (R85). -/
theorem nextInOrder_byte {m : OpcodeMap} (hm : m.Valid) (pc : Byte) (k : OpKind) :
    nextInOrder pc (m.byte k) = pc + BitVec.ofNat 8 (k.format.operandCount + 1) := by
  rw [nextInOrder, nops_byte hm]

/-- Settles O3: the fields of the opcode are `opcode_fields`, the advance is `effect_advance_pc_of_not_setsPc`. -/
theorem opcodeFieldsMatchTheHandler : Obligations.OpcodeFieldsMatchTheHandler := by
  refine ⟨fun m hm i => ⟨?_, ?_⟩, fun i s hcall hret => ⟨_, exec_eq i s, ?_⟩⟩
  · rw [operandBytes_length, nops_byte hm]
  · rw [setsPc_byte hm, kind_setsPc_iff]
  · refine effect_advance_pc_of_not_setsPc s (Bool.eq_false_iff.2 fun h => ?_)
    obtain ⟨ra, hi⟩ | hi := kind_setsPc_iff.1 h
    · exact hcall ra hi
    · exact hret hi

end Sys2Proof.Machine

/-! PROOFS. 40_engine_cycle.md, 50_blocks_and_interfaces.md and 60_exceptions.md: what one step does under every opcode
map (R80 to R90), the memory port (R146), the output (R27), the run flag and the fault record (R82, R88, R163). -/

namespace Sys2Proof.Machine

/-! ### Fetch and decode (R81 to R83) -/

/-- There is no instruction at `pc` exactly when the byte there is no kind's; this needs no valid map. -/
theorem fetch_instr_eq_none {m : OpcodeMap} {s : State} :
    s.fetch.instr m = none ↔ ∀ k, m.byte k ≠ s.load s.pc := by
  rw [State.instr, Option.map_eq_none_iff, fetch_ir, decodeOpcode_eq_none]

/-- The instruction at `pc` has that byte as its opcode, and its operands are read from the two bytes after it. -/
theorem byte_kind_of_fetch_instr {m : OpcodeMap} {s : State} {i : Instr} (h : s.fetch.instr m = some i) :
    m.byte i.kind = s.load s.pc ∧ i = instrOf i.kind s.operandA s.operandB := by
  obtain ⟨k, hk, rfl⟩ := Option.map_eq_some_iff.1 h
  rw [kind_instrOf]
  exact ⟨byte_of_decodeOpcode hk, rfl⟩

/-- Under a valid map the opcode byte tells the kind of the instruction at `pc`. -/
theorem kind_eq_of_fetch_instr {m : OpcodeMap} (hm : m.Valid) {s : State} {i : Instr} {k : OpKind}
    (h : s.fetch.instr m = some i) (hk : s.load s.pc = m.byte k) : i.kind = k :=
  byte_inj hm ((byte_kind_of_fetch_instr h).1.trans hk)

/-- The bytes at `pc` decode to the instruction the step runs. -/
theorem fetch_instr_of_decode {m : OpcodeMap} {s : State} {i : Instr} {rest : List Byte}
    (h : decode m s.window = .ok (i, rest)) : s.fetch.instr m = some i := by
  obtain ⟨k, ops, hk, hbs, hlen, rfl⟩ := decode_eq_ok h
  obtain ⟨hop, hwin⟩ := List.cons.inj hbs
  have hinstr : s.fetch.instr m = some (instrOf k s.operandA s.operandB) := by
    rw [State.instr, fetch_ir, hop, hk]
    rfl
  rw [hinstr]
  cases k with
  | hlt | ret => rfl
  | prn | push | pop | call =>
    obtain ⟨a, rfl⟩ := List.length_eq_one_iff.1 hlen
    obtain ⟨ha, -⟩ := List.cons.inj hwin
    rw [ha]; rfl
  | ldi | add | mul =>
    obtain ⟨a, b, rfl⟩ := List.length_eq_two.1 hlen
    obtain ⟨ha, hwin⟩ := List.cons.inj hwin
    obtain ⟨hb, -⟩ := List.cons.inj hwin
    rw [ha, hb]; rfl

/-- A running machine's step on bytes that decode. -/
theorem stepWith_of_decode {m : OpcodeMap} {s : State} {i : Instr} {rest : List Byte} (hr : s.running = true)
    (h : decode m s.window = .ok (i, rest)) : stepWith m s = exec i s.fetch :=
  stepWith_supported hr (fetch_instr_of_decode h)

/-- A running machine's step on a byte that is no opcode. -/
theorem stepWith_of_no_opcode {m : OpcodeMap} {s : State} (hr : s.running = true)
    (h : ∀ k, m.byte k ≠ s.load s.pc) :
    stepWith m s = .next (s.fetch.fatal (.unsupportedOpcode (s.load s.pc) s.pc)) :=
  stepWith_unsupported hr (fetch_instr_eq_none.2 h)

/-- A running machine's step on a kind's opcode byte. -/
theorem stepWith_of_byte {m : OpcodeMap} (hm : m.Valid) {s : State} {k : OpKind} (hr : s.running = true)
    (hk : s.load s.pc = m.byte k) : stepWith m s = exec (instrOf k s.operandA s.operandB) s.fetch :=
  stepWith_supported hr (fetch_instr_of_byte hm hk)

/-- Settles O14: `stepWith_of_decode` for this machine's map. -/
theorem stepRunsTheDecodedInstruction : Obligations.StepRunsTheDecodedInstruction := fun _ _ _ hr h =>
  stepWith_of_decode hr h

/-- Settles O35: a running machine's step by `stepWith_of_decode` and `stepWith_of_no_opcode`, a stopped one's by
`stepWith_stopped`. -/
theorem everyValidOpcodeMapHasItsStep : Obligations.EveryValidOpcodeMapHasItsStep :=
  ⟨fun _ _ _ => ⟨fun hr _ _ h => stepWith_of_decode hr h, fun hr h => stepWith_of_no_opcode hr h,
    fun h => stepWith_stopped h⟩, step_eq⟩

/-- Settles O18: the error is `stepWith_of_no_opcode`, the handler is `stepWith_of_byte`. -/
theorem decodeDispatchesOrRecordsTheError : Obligations.DecodeDispatchesOrRecordsTheError := fun _ hr =>
  ⟨fun h => stepWith_of_no_opcode hr h, fun k hk =>
    ⟨_, kind_instrOf k _ _, stepWith_of_byte opcodes_valid hr hk.symm⟩⟩

/-- A running machine has a step. -/
theorem stepWith_next_of_running (m : OpcodeMap) {s : State} (hr : s.running = true) :
    ∃ t, stepWith m s = .next t := by
  cases hi : s.fetch.instr m with
  | none => exact ⟨_, stepWith_unsupported hr hi⟩
  | some i => exact ⟨_, (stepWith_supported hr hi).trans (exec_eq i _)⟩

/-- Settles O15: a running machine has a step (`stepWith_next_of_running`), a stopped one the stop `notRunning`. -/
theorem stepsExactlyWhileRunning : Obligations.StepsExactlyWhileRunning := by
  intro s
  refine ⟨⟨fun ⟨t, h⟩ => (step_cases h).1, stepWith_next_of_running opcodes⟩, step_stopped, fun r h => ?_⟩
  cases hr : s.running with
  | false => rw [step_stopped hr] at h; cases h
  | true =>
    obtain ⟨t, ht⟩ := stepWith_next_of_running opcodes hr
    rw [step_eq, ht] at h; cases h

/-- Settles O29: the fetch overwrites `IR` before anything reads it. -/
theorem oldInstructionRegisterIsUnobservable : Obligations.OldInstructionRegisterIsUnobservable := fun _ _ => rfl

/-- Settles O34: the status outputs of the state `stepWith_of_no_opcode` answers. -/
theorem statusShowsTheFatalError : Obligations.StatusShowsTheFatalError := fun _ hr h =>
  ⟨_, stepWith_of_no_opcode hr h, rfl, rfl, rfl, rfl⟩

/-- Everything a step that answers a next state can have done: the fatal error on a byte that is no opcode, or the
execute phase and the advance of an instruction with that opcode byte. -/
theorem stepWith_effect_cases {m : OpcodeMap} {s t : State} (h : stepWith m s = .next t) :
    s.running = true ∧
      (((∀ k, m.byte k ≠ s.load s.pc) ∧ t = s.fetch.fatal (.unsupportedOpcode (s.load s.pc) s.pc)) ∨
        ∃ i, s.fetch.instr m = some i ∧ t = (effect i s.fetch).advance) := by
  obtain ⟨hr, ⟨hnone, ht⟩ | ⟨i, hi, hexec⟩⟩ := stepWith_cases h
  · exact ⟨hr, .inl ⟨fetch_instr_eq_none.1 hnone, ht⟩⟩
  · exact ⟨hr, .inr ⟨i, hi, eq_of_exec hexec⟩⟩

/-! ### The program counter (R85, R90) -/

/-- Settles O19: bit 4 clear means no load request, so `pc` is the next address in order, and bits 7:6 are the format's
number of operand bytes. -/
theorem pcAdvancesByOperandCountPlusOne : Obligations.PcAdvancesByOperandCountPlusOne := by
  intro s k hr hk hset
  refine ⟨_, (stepWith_of_byte opcodes_valid hr hk.symm).trans (exec_eq ..), ?_⟩
  have hkset : k.setsPc = false := by rw [← setsPc_byte opcodes_valid, hk, hset]
  have hpc : (effect (instrOf k s.operandA s.operandB) s.fetch).advance.pc =
      s.pc + BitVec.ofNat 8 (nops (Memory.read s.mem s.pc) + 1) := by
    rw [effect_advance_pc_of_not_setsPc _ (by rwa [kind_instrOf])]
    exact if_neg (by simp [State.load, hset])
  have hn : nops (Memory.read s.mem s.pc) = k.format.operandCount := by rw [← hk, nops_byte opcodes_valid]
  rw [hpc]
  refine ⟨?_, ?_, ?_, ?_⟩
  · rw [nops_eq_div]
    simp [Nat.add_assoc]
  · rw [hn]
    rintro (rfl | rfl | rfl) <;> rfl
  · rw [hn]
    rintro (rfl | rfl | rfl) <;> rfl
  · rw [hn]
    rintro rfl
    rfl

/-- Settles O20: an instruction moves `pc` as `effect_advance_pc` says, and the fatal error leaves it. -/
theorem nextPcIsWhatThePcControllerSelects : Obligations.NextPcIsWhatThePcControllerSelects := by
  intro m hm s t h
  obtain ⟨-, ⟨hno, rfl⟩ | ⟨i, hi, rfl⟩⟩ := stepWith_effect_cases h
  · refine ⟨fun i hi => ?_, fun _ => rfl⟩
    rw [fetch_instr_eq_none.2 hno] at hi
    cases hi
  · refine ⟨fun j hj => ?_, fun hn => by rw [hi] at hn; cases hn⟩
    obtain rfl : i = j := Option.some.inj (hi.symm.trans hj)
    exact effect_advance_pc hm (byte_kind_of_fetch_instr hi).1.symm

/-! ### The run flag and the fault record (R82, R88, R163) -/

/-- Under any map, a step that leaves the machine stopped executed HLT or ended in the error of an unsupported
opcode. -/
theorem stepWith_running_eq_false_iff {m : OpcodeMap} {s t : State} (h : stepWith m s = .next t) :
    t.running = false ↔ s.fetch.instr m = some .hlt ∨ ∀ k, m.byte k ≠ s.load s.pc := by
  obtain ⟨hr, ⟨hno, rfl⟩ | ⟨i, hi, rfl⟩⟩ := stepWith_effect_cases h
  · exact ⟨fun _ => .inr hno, fun _ => rfl⟩
  · have hyes : ¬ ∀ k, m.byte k ≠ s.load s.pc := fun hno => hno _ (byte_kind_of_fetch_instr hi).1
    rw [advance_running, effect_running, hi]
    simp [hyes, hr]

theorem fetch_instr_eq_hlt_iff {m : OpcodeMap} (hm : m.Valid) {s : State} :
    s.fetch.instr m = some .hlt ↔ s.load s.pc = m.hlt :=
  ⟨fun h => (byte_kind_of_fetch_instr h).1.symm, fun h => fetch_instr_of_byte hm (k := .hlt) h⟩

theorem beforeStart_running {s : State} (h : s.beforeStart = true) : s.running = false := by
  simp only [State.beforeStart, Bool.and_eq_true, Bool.not_eq_true'] at h
  obtain ⟨⟨hrun, -⟩, -⟩ := h
  exact hrun

/-- Settles O21: the step's part is `stepWith_running_eq_false_iff`, the start's is its guard. -/
theorem runFlagIsClearedOnlyByHaltOrFatalError : Obligations.RunFlagIsClearedOnlyByHaltOrFatalError := by
  refine ⟨fun s t h => ⟨(step_cases h).1, ?_⟩, fun _ _ => rfl, fun s t h => ?_⟩
  · exact (stepWith_running_eq_false_iff h).trans (or_congr_left (fetch_instr_eq_hlt_iff opcodes_valid))
  · obtain ⟨hbefore, rfl⟩ := start_cases h
    exact ⟨beforeStart_running hbefore, rfl⟩

/-- Everything a true record says of the machine. -/
theorem faultRecordTrue_of_some {s : State} {m : OpcodeMap} {e : FatalError} (h : s.FaultRecordTrue m)
    (he : s.fault = some e) : s.running = false ∧ e = .unsupportedOpcode s.ir s.pc ∧ s.load s.pc = s.ir ∧
      ∀ k, m.byte k ≠ s.ir := by
  rw [State.FaultRecordTrue, he] at h
  cases e with
  | unsupportedALUOperation tag => exact h.elim
  | unsupportedOpcode ir pc =>
    obtain ⟨hrun, rfl, rfl, hload, hnone⟩ := h
    exact ⟨hrun, rfl, hload, decodeOpcode_eq_none.1 hnone⟩

/-- In a running machine a true record is none. -/
theorem fault_eq_none_of_running {s : State} {m : OpcodeMap} (h : s.FaultRecordTrue m) (hr : s.running = true) :
    s.fault = none := by
  cases he : s.fault with
  | none => rfl
  | some e => simp [(faultRecordTrue_of_some h he).1] at hr

/-- The record the fatal error of an unsupported opcode writes is true. -/
theorem faultRecordTrue_fatal {m : OpcodeMap} {s : State} (hno : ∀ k, m.byte k ≠ s.load s.pc) :
    (s.fetch.fatal (.unsupportedOpcode (s.load s.pc) s.pc)).FaultRecordTrue m :=
  ⟨rfl, rfl, rfl, rfl, decodeOpcode_eq_none.2 hno⟩

theorem transaction_apply_wf {mem : Memory} (x : MemTransaction) (h : Memory.wf mem = true) :
    Memory.wf (x.apply mem) = true := by
  cases x with
  | read a v => exact h
  | write a v => exact write_wf a v h

/-- A handler keeps the canonical form of memory. -/
theorem effect_wf (i : Instr) {s : State} (h : Memory.wf s.mem = true) : Memory.wf (effect i s).mem = true := by
  rw [effect_mem]
  exact List.foldlRecOn (motive := fun mem => Memory.wf mem = true) _ _ h fun _ hmem x _ =>
    transaction_apply_wf x hmem

/-- Every step keeps the invariant: an executed instruction leaves the record of a running machine, which is none, and
the error writes a true one. -/
theorem stepWith_keeps_inv {m : OpcodeMap} {s t : State} (hs : s.InvWith m) (h : stepWith m s = .next t) :
    t.InvWith m := by
  obtain ⟨hwf, hrec⟩ := hs
  obtain ⟨hr, ⟨hno, rfl⟩ | ⟨i, -, rfl⟩⟩ := stepWith_effect_cases h
  · exact ⟨hwf, faultRecordTrue_fatal hno⟩
  · refine ⟨?_, faultRecordTrue_of_none ?_⟩
    · rw [advance_mem]
      exact effect_wf i hwf
    · rw [advance_fault, effect_fault, fetch_fault, fault_eq_none_of_running hrec hr]

/-- Settles O23: `stepWith_keeps_inv`, for every map and for this machine's. -/
theorem everyStepKeepsTheInvariant : Obligations.EveryStepKeepsTheInvariant :=
  ⟨fun _ _ _ => stepWith_keeps_inv, fun _ _ => stepWith_keeps_inv⟩

/-- A machine with HLT's byte in `IR` is told from one that was never started. -/
theorem beforeStart_of_ir_ne {s : State} (h : s.ir ≠ 0x00#8) : s.beforeStart = false := by
  simp [State.beforeStart, h]

/-- Settles O24: the machine stopped by HLT or by the error (`stepWith_running_eq_false_iff`); HLT leaves the record of a
running machine, the error writes one. -/
theorem runEndsByHaltOrByAFatalError : Obligations.RunEndsByHaltOrByAFatalError := by
  intro s t hs h hstop
  have hr : s.running = true := (step_cases h).1
  obtain hhlt | hno := (stepWith_running_eq_false_iff h).1 hstop
  · have hop : s.load s.pc = opcodes.hlt := (fetch_instr_eq_hlt_iff opcodes_valid).1 hhlt
    obtain rfl := Host.Outcome.next.inj ((stepWith_hlt opcodes_valid hr hop).symm.trans h)
    refine .inl ⟨hop, hstop, ?_, beforeStart_of_ir_ne ?_⟩
    · rw [advance_fault, halt_fault, fetch_fault, fault_eq_none_of_running hs.2 hr]
    · rw [advance_ir, halt_ir, fetch_ir, hop]
      decide
  · obtain rfl := Host.Outcome.next.inj ((stepWith_of_no_opcode hr hno).symm.trans h)
    exact .inr ⟨hno, rfl, Option.some_ne_none _⟩

/-- Settles O25: a true record stands in a stopped machine. -/
theorem recordedFaultIsFinal : Obligations.RecordedFaultIsFinal := fun _ _ hs he =>
  step_stopped (faultRecordTrue_of_some hs.2 he).1

/-- The ALU refuses every tag that is not a program's (R114). -/
theorem alu_of_foreign {tag : AluTag} (hadd : tag ≠ .add) (hmul : tag ≠ .mul) (p q : Byte) :
    alu tag p q = .error (.unsupportedALUOperation tag) := by
  cases tag with
  | add => exact absurd rfl hadd
  | mul => exact absurd rfl hmul
  | other n => rfl

/-- Settles O26: a foreign tag is the ALU's error (`alu_of_foreign`); a step writes only the decode's error and keeps
every other record. -/
theorem unsupportedAluTagIsFatalAndNeverFromAProgram :
    Obligations.UnsupportedAluTagIsFatalAndNeverFromAProgram := by
  refine ⟨fun tag ra rb s hadd hmul => aluApply_error (alu_of_foreign hadd hmul _ _), fun s t tag h hrec => ?_⟩
  obtain ⟨-, ⟨-, rfl⟩ | ⟨i, -, rfl⟩⟩ := stepWith_effect_cases h
  · cases hrec
  · simpa using hrec

/-! ### The output (R27, R148) -/

/-- An instruction other than PRN puts nothing on the output port. -/
theorem output_eq_none {i : Instr} (s : State) (h : i.kind ≠ .prn) : s.output i = none := by
  cases i with
  | prn ra => exact absurd rfl h
  | _ => rfl

/-- Settles O27: a step appends what the output port of the decoded instruction carries (`effect_out`), which is PRN's
register or nothing. -/
theorem onlyPrnAppendsToTheOutput : Obligations.OnlyPrnAppendsToTheOutput := by
  intro s t h
  obtain ⟨-, ⟨hno, rfl⟩ | ⟨i, hi, rfl⟩⟩ := stepWith_effect_cases h
  · exact ⟨fun hprn => absurd hprn.symm (hno .prn), fun _ => rfl⟩
  · obtain ⟨hop, heq⟩ := byte_kind_of_fetch_instr hi
    rw [advance_out, effect_out, fetch_out]
    refine ⟨fun hprn => ?_, fun hne => ?_⟩
    · rw [kind_eq_of_fetch_instr opcodes_valid hi (k := .prn) hprn] at heq
      rw [heq]
      rfl
    · rw [output_eq_none _ fun hk => hne (by rw [hk] at hop; exact hop.symm), Option.toList_none, List.append_nil]

/-- The execute phase with another output before it appends the same bytes and otherwise does the same. -/
theorem effect_advance_withOut (i : Instr) (s : State) (o : List Byte) :
    (effect i { s with out := o }).advance =
      { (effect i s).advance with out := o ++ (s.output i).toList } := by
  rw [advance_eq, advance_eq]
  cases i with
  | prn _ => rfl
  | _ =>
    simp only [State.output, Option.toList_none, List.append_nil]
    rfl

/-- Settles O28: neither the fetch nor the decode reads the output, and the execute phase is
`effect_advance_withOut`. -/
theorem outputIsNeverReadBack : Obligations.OutputIsNeverReadBack := by
  intro s t h
  obtain ⟨hr, ⟨hno, rfl⟩ | ⟨i, hi, rfl⟩⟩ := stepWith_effect_cases h
  · refine ⟨[], (List.append_nil _).symm, fun o => ?_⟩
    rw [List.append_nil]
    exact stepWith_of_no_opcode hr hno
  · refine ⟨(s.fetch.output i).toList, by rw [advance_out, effect_out, fetch_out], fun o => ?_⟩
    have hstep : step { s with out := o } = exec i { s.fetch with out := o } := step_supported hr hi
    rw [hstep, exec_eq, effect_advance_withOut]

/-! ### The memory port (R50, R146) -/

theorem transactions_of_instr {m : OpcodeMap} {s : State} {i : Instr} (h : s.fetch.instr m = some i) :
    s.transactions m =
      s.readTransaction s.pc :: (s.fetch.operandTransactions ++ s.fetch.stackTransactions i) := by
  simp [State.transactions, h]

theorem transactions_of_no_opcode {m : OpcodeMap} {s : State} (h : ∀ k, m.byte k ≠ s.load s.pc) :
    s.transactions m = [s.readTransaction s.pc] := by
  simp [State.transactions, fetch_instr_eq_none.2 h]

theorem operandTransaction_is_read {s : State} {x : MemTransaction} (h : x ∈ s.operandTransactions) :
    ∃ a, x = s.readTransaction a := by
  have hmem := List.mem_of_mem_take h
  simp only [List.mem_cons, List.not_mem_nil, or_false] at hmem
  exact hmem.elim (⟨_, ·⟩) (⟨_, ·⟩)

/-- Reads leave memory as it is. -/
theorem foldl_operandTransactions (s : State) (mem : Memory) :
    s.operandTransactions.foldl MemTransaction.apply mem = mem :=
  List.foldlRecOn (motive := fun mem' => mem' = mem) _ _ rfl fun _ hmem x hx => by
    obtain ⟨a, rfl⟩ := operandTransaction_is_read hx
    exact hmem

theorem stackTransactions_length_le (i : Instr) (s : State) : (s.stackTransactions i).length ≤ 1 := by
  cases i <;> simp [State.stackTransactions]

/-- A stack read carries the byte memory holds. -/
theorem stackTransaction_read {i : Instr} {s : State} {a v : Byte} (h : .read a v ∈ s.stackTransactions i) :
    v = s.load a := by
  cases i with
  | pop _ | ret =>
    obtain ⟨rfl, rfl⟩ := MemTransaction.read.inj (List.mem_singleton.1 h)
    rfl
  | push _ | call _ => cases List.mem_singleton.1 h
  | ldi _ _ | prn _ | hlt | add _ _ | mul _ _ => cases h

/-- At most the stack transaction is a write. -/
theorem transactions_writes_le (m : OpcodeMap) (s : State) :
    ((s.transactions m).filter MemTransaction.isWrite).length ≤ 1 := by
  cases hi : s.fetch.instr m with
  | none =>
    rw [transactions_of_no_opcode (fetch_instr_eq_none.1 hi)]
    exact Nat.zero_le 1
  | some i =>
    have hops : s.fetch.operandTransactions.filter MemTransaction.isWrite = [] :=
      List.filter_eq_nil_iff.2 fun x hx => by
        obtain ⟨a, rfl⟩ := operandTransaction_is_read hx
        simp [State.readTransaction, MemTransaction.isWrite]
    rw [transactions_of_instr hi, List.filter_cons_of_neg (by simp [State.readTransaction, MemTransaction.isWrite]),
      List.filter_append, hops, List.nil_append]
    exact (List.length_filter_le _ _).trans (stackTransactions_length_le i _)

/-- Every read carries the byte memory held before the step. -/
theorem transactions_read {m : OpcodeMap} {s : State} {a v : Byte} (h : .read a v ∈ s.transactions m) :
    v = s.load a := by
  have hread : ∀ b, MemTransaction.read a v = s.readTransaction b → v = s.load a := by
    rintro b hb
    obtain ⟨rfl, rfl⟩ := MemTransaction.read.inj hb
    rfl
  cases hi : s.fetch.instr m with
  | none =>
    rw [transactions_of_no_opcode (fetch_instr_eq_none.1 hi)] at h
    exact hread _ (List.mem_singleton.1 h)
  | some i =>
    rw [transactions_of_instr hi, List.mem_cons, List.mem_append] at h
    obtain h | h | h := h
    · exact hread _ h
    · obtain ⟨b, hb⟩ := operandTransaction_is_read h
      exact hread b hb
    · exact stackTransaction_read h

/-- The transactions applied in order give the step's memory. -/
theorem stepWith_mem {m : OpcodeMap} {s t : State} (h : stepWith m s = .next t) :
    t.mem = (s.transactions m).foldl MemTransaction.apply s.mem := by
  obtain ⟨-, ⟨hno, rfl⟩ | ⟨i, hi, rfl⟩⟩ := stepWith_effect_cases h
  · rw [transactions_of_no_opcode hno]
    rfl
  · rw [advance_mem, effect_mem, transactions_of_instr hi, List.foldl_cons, List.foldl_append,
      foldl_operandTransactions]
    rfl

/-- The transactions begin with the opcode read and the operand reads, as many as the format has. -/
theorem transactions_take {m : OpcodeMap} (hm : m.Valid) {s : State} {k : OpKind} (hk : s.load s.pc = m.byte k) :
    (s.transactions m).take (1 + nops (s.load s.pc)) =
      ([s.pc, s.pc + 1#8, s.pc + 2#8].take (1 + nops (s.load s.pc))).map s.readTransaction := by
  have hn : nops (s.load s.pc) ≤ 2 := by
    rw [hk, nops_byte hm]
    cases k <;> decide
  have hlen : s.fetch.operandTransactions.length = nops (s.load s.pc) := by
    simpa [State.operandTransactions] using hn
  rw [transactions_of_instr (fetch_instr_of_byte hm hk), Nat.add_comm, List.take_succ_cons, ← hlen,
    List.take_left, List.map_take, hlen, List.map_cons, List.take_succ_cons]
  rfl

/-- Settles O30: one lemma for each clause. -/
theorem memoryIsWhatTheTransactionsLeave : Obligations.MemoryIsWhatTheTransactionsLeave := fun _ hm _ _ h =>
  ⟨stepWith_mem h, transactions_writes_le _ _, fun _ _ => transactions_read, transactions_of_no_opcode,
    fun _ hk => transactions_take hm hk.symm⟩

/-- Only PUSH and CALL write, and only at the push address (R41, R120). -/
theorem stackTransaction_write {i : Instr} {s : State} {a v : Byte} (h : .write a v ∈ s.stackTransactions i) :
    a = s.pushAddr ∧ (i.kind = .push ∨ i.kind = .call) := by
  cases i with
  | push _ | call _ =>
    obtain ⟨rfl, -⟩ := MemTransaction.write.inj (List.mem_singleton.1 h)
    simp [Instr.kind]
  | pop _ | ret => cases List.mem_singleton.1 h
  | ldi _ _ | prn _ | hlt | add _ _ | mul _ _ => cases h

/-- Transactions that do not write to an address leave it. -/
theorem read_foldl_apply {xs : List MemTransaction} {a : Byte} (mem : Memory)
    (h : ∀ v, .write a v ∉ xs) : Memory.read (xs.foldl MemTransaction.apply mem) a = Memory.read mem a :=
  List.foldlRecOn (motive := fun mem' => Memory.read mem' a = Memory.read mem a) _ _ rfl fun mem' hmem x hx => by
    cases x with
    | read b w => exact hmem
    | write b w =>
      have hne : a ≠ b := by rintro rfl; exact h w hx
      exact (read_write_ne mem' w hne).trans hmem

/-- A handler leaves every byte but the one at the push address, and that too unless it is PUSH's or CALL's. -/
theorem read_effect {i : Instr} {s : State} {a : Byte}
    (h : a ≠ s.pushAddr ∨ (i.kind ≠ .push ∧ i.kind ≠ .call)) :
    Memory.read (effect i s).mem a = Memory.read s.mem a := by
  rw [effect_mem]
  refine read_foldl_apply _ fun v hv => ?_
  obtain ⟨ha, hk⟩ := stackTransaction_write hv
  obtain hne | ⟨hpush, hcall⟩ := h
  · exact hne ha
  · exact hk.elim hpush hcall

/-- Settles O31: `read_effect` at the fetched opcode's kind. -/
theorem memoryChangesOnlyAtThePushAddress : Obligations.MemoryChangesOnlyAtThePushAddress := by
  intro s t a h ha
  obtain ⟨-, ⟨-, rfl⟩ | ⟨i, hi, rfl⟩⟩ := stepWith_effect_cases h
  · rfl
  · have hop := (byte_kind_of_fetch_instr hi).1
    rw [advance_mem]
    refine read_effect (ha.imp_right fun ⟨hpush, hcall⟩ => ⟨fun hk => hpush ?_, fun hk => hcall ?_⟩)
    · rw [hk] at hop; exact hop.symm
    · rw [hk] at hop; exact hop.symm

end Sys2Proof.Machine

/-! PROOFS. 40_engine_cycle.md and 70_reset_and_hazards.md: the run (R87, R190), its ends and the life of the block
(R181). -/

namespace Sys2Proof.Machine

/-! ### The run as an iteration (R87) -/

theorem runFor_add (m : OpcodeMap) (n k : Nat) (s : State) : runFor m (n + k) s = runFor m k (runFor m n s) := by
  induction n generalizing s with
  | zero => rw [Nat.zero_add, runFor_zero]
  | succ n ih =>
    cases hr : s.running with
    | false => simp only [runFor_stopped _ hr]
    | true =>
      obtain ⟨t, ht⟩ := stepWith_next_of_running m hr
      rw [Nat.add_right_comm, runFor_succ _ ht, runFor_succ _ ht, ih]

/-- Once stopped the run stays where it is. -/
theorem runFor_add_of_stopped {m : OpcodeMap} {n : Nat} {s : State} (h : (runFor m n s).running = false) (k : Nat) :
    runFor m (n + k) s = runFor m n s := by
  rw [runFor_add, runFor_stopped k h]

/-- Two stopped states of one run are the same: both are the run after the sum of their numbers of steps. -/
theorem runFor_stopped_unique {m : OpcodeMap} {n k : Nat} {s : State} (hn : (runFor m n s).running = false)
    (hk : (runFor m k s).running = false) : runFor m n s = runFor m k s := by
  rw [← runFor_add_of_stopped hn k, Nat.add_comm, runFor_add_of_stopped hk n]

/-- Settles O39: the invariant holds at the launch (`launch_invWith`) and every step keeps it (`stepWith_keeps_inv`). -/
theorem everyLaunchedRunMeetsTheInvariant : Obligations.EveryLaunchedRunMeetsTheInvariant := fun m _ _ n h =>
  runFor_induction (fun _ _ => stepWith_keeps_inv) n (launch_invWith m h)

/-! ### The ends of a run -/

/-- A machine that stopped without a record holds HLT's byte in `IR`. -/
def HaltedHoldsHlt (m : OpcodeMap) (s : State) : Prop := s.running = false → s.fault = none → s.ir = m.hlt

/-- Every step leaves a state in which a stop without a record is HLT's. -/
theorem stepWith_haltedHoldsHlt {m : OpcodeMap} {s t : State} (h : stepWith m s = .next t) : HaltedHoldsHlt m t := by
  intro hstop hfault
  obtain hhlt | hno := (stepWith_running_eq_false_iff h).1 hstop
  · exact (stepWith_ir h).trans (byte_kind_of_fetch_instr hhlt).1.symm
  · rw [stepWith_of_no_opcode (stepWith_cases h).1 hno] at h
    obtain rfl := Host.Outcome.next.inj h
    cases hfault

theorem runFor_haltedHoldsHlt {m : OpcodeMap} {image : List Byte} {s : State} (n : Nat)
    (h : launch image = some s) : HaltedHoldsHlt m (runFor m n s) :=
  runFor_induction (fun _ _ _ => stepWith_haltedHoldsHlt) n fun hstop => by
    simp [(launch_running_fault h).1] at hstop

/-- The run of a launched image does not end exactly when it has no end state. -/
theorem runsForever_iff {m : OpcodeMap} {image : List Byte} {s : State} (h : launch image = some s) :
    RunsForever m image ↔ ¬ ∃ t, RunEndsIn m image t := by
  constructor
  · rintro ⟨s₁, h₁, hrun⟩ ⟨t, s₂, n, h₂, rfl, hstop⟩
    obtain rfl : s₁ = s₂ := Option.some.inj (h₁.symm.trans h₂)
    simp [hrun n] at hstop
  · intro hno
    refine ⟨s, h, fun n => ?_⟩
    by_contra hn
    exact hno ⟨_, s, n, h, rfl, Bool.eq_false_iff.2 hn⟩

/-- Settles O36: the end is unique and stays because a stopped run does, and at it the invariant says what a record
means and `HaltedHoldsHlt` what none means. -/
theorem runEndsOnceInOneOfTwoWaysOrNever : Obligations.RunEndsOnceInOneOfTwoWaysOrNever := by
  intro m image s hs
  refine ⟨runsForever_iff hs, ?_, fun n k h => runFor_add_of_stopped h k, ?_⟩
  · rintro t u ⟨s₁, n, h₁, rfl, hn⟩ ⟨s₂, k, h₂, rfl, hk⟩
    obtain rfl : s₁ = s₂ := Option.some.inj (h₁.symm.trans h₂)
    exact runFor_stopped_unique hn hk
  · rintro t ⟨s₁, n, h₁, rfl, hn⟩
    have hrec := (everyLaunchedRunMeetsTheInvariant m image s₁ n h₁).2
    cases he : (runFor m n s₁).fault with
    | none => exact .inl ⟨rfl, runFor_haltedHoldsHlt n h₁ hn he⟩
    | some e =>
      obtain ⟨-, rfl, hload, hno⟩ := faultRecordTrue_of_some hrec he
      exact .inr ⟨rfl, hload, hno⟩

/-- Settles O11: the empty image's one step is the error on the 0x00 at address 0, and the machine then has no step. -/
theorem emptyImageRunsOneStep : Obligations.EmptyImageRunsOneStep := by
  obtain ⟨s, hs⟩ : ∃ s, launch [] = some s := ⟨_, launch_of_length_le (Nat.zero_le _)⟩
  have hpc : s.pc = 0x00#8 := by
    obtain rfl := Option.some.inj ((launch_of_length_le (Nat.zero_le _)).symm.trans hs)
    rfl
  have hload : s.load s.pc = 0x00#8 := load_of_launch (Nat.zero_le _) hs _
  have hno : ∀ k, opcodes.byte k ≠ s.load s.pc := fun k => by rw [hload]; cases k <;> decide
  refine ⟨s, _, hs, stepWith_of_no_opcode (launch_running_fault hs).1 hno, ?_, rfl, hpc, step_stopped rfl⟩
  rw [fatal_fault, hload, hpc]

/-! ### A run without an end (R190) -/

/-- The 256 cells hold PRN's opcode: wherever `pc` is there is a PRN. -/
def prnImage : List Byte := List.replicate 256 0x47#8

/-- A running machine whose memory is PRN's opcode throughout. -/
def PrnEverywhere (s : State) : Prop := s.running = true ∧ ∀ a, s.load a = 0x47#8

theorem launch_prnImage : ∃ s, launch prnImage = some s ∧ PrnEverywhere s := by
  have hlen : prnImage.length ≤ 256 := List.length_replicate.le
  obtain ⟨s, hs⟩ : ∃ s, launch prnImage = some s := ⟨_, launch_of_length_le hlen⟩
  refine ⟨s, hs, (launch_running_fault hs).1, fun a => ?_⟩
  rw [load_of_launch hlen hs, prnImage, List.getD_replicate _ a.isLt]

/-- The step there is PRN's, which changes neither the run flag nor memory. -/
theorem stepWith_keeps_prnEverywhere {m : OpcodeMap} (hm : m.Valid) {s t : State} (hs : PrnEverywhere s)
    (h : stepWith m s = .next t) : PrnEverywhere t := by
  obtain ⟨hr, hmem⟩ := hs
  have hprn : s.load s.pc = m.byte .prn := (hmem _).trans (prn_of_valid hm).symm
  rw [stepWith_of_byte hm hr hprn, exec_eq] at h
  obtain rfl := Host.Outcome.next.inj h
  exact ⟨(advance_running _).trans hr, fun a => (advance_load _ a).trans (hmem a)⟩

/-- Settles O37: the image of 256 PRN opcodes runs on, because every step keeps `PrnEverywhere`. -/
theorem someRunDoesNotEnd : Obligations.SomeRunDoesNotEnd := by
  intro m hm
  obtain ⟨s, hs, hprn⟩ := launch_prnImage
  exact ⟨prnImage, s, hs, fun n => (runFor_induction (fun _ _ => stepWith_keeps_prnEverywhere hm) n hprn).1⟩

/-! ### No way back (R181) -/

theorem start_eq_none {s : State} (h : s.beforeStart = false) : s.start = none := by
  simp [State.start, h]

theorem loadImage_eq_none {s : State} (h : s.beforeStart = false) (image : List Byte) :
    s.loadImage image = none := by
  simp [State.loadImage, h]

theorem beforeStart_of_running {s : State} (h : s.running = true) : s.beforeStart = false := by
  simp [State.beforeStart, h]

/-- No state a step answers is one before the start: it runs, or it has a record, or `IR` holds HLT's 0x01. -/
theorem stepWith_not_beforeStart {m : OpcodeMap} (hm : m.Valid) {s t : State} (h : stepWith m s = .next t) :
    t.beforeStart = false := by
  cases hrun : t.running with
  | true => exact beforeStart_of_running hrun
  | false =>
    cases hfault : t.fault with
    | some e => simp [State.beforeStart, hfault]
    | none =>
      refine beforeStart_of_ir_ne ?_
      rw [stepWith_haltedHoldsHlt h hrun hfault, hlt_of_valid hm]
      decide

/-- Settles O38: the first part is the launch taken apart; in the second `beforeStart` is false at the launch and after
every step. -/
theorem noPathFromTheEndBackToARun : Obligations.NoPathFromTheEndBackToARun := by
  refine ⟨fun image hlen => ?_, fun m hm image s n h => ?_⟩
  · have hload : State.reset.loadImage image =
        some { State.reset with mem := Memory.storeFrom [] Config.loadBase image } :=
      if_pos (Bool.and_eq_true_iff.2 ⟨rfl, imageOk_iff.2 hlen⟩)
    exact ⟨_, _, hload, rfl, launch_of_length_le hlen⟩
  · have hafter : (runFor m n s).beforeStart = false :=
      runFor_induction (fun _ _ _ => stepWith_not_beforeStart hm) n
        (beforeStart_of_running (launch_running_fault h).1)
    exact ⟨start_eq_none hafter, loadImage_eq_none hafter⟩

end Sys2Proof.Machine

/-! PROOFS. 41_data_and_system.md to 44_call_return.md: each instruction on the state its fetch hands on, with its frame
(R100 to R131), and the stack as a whole (R120). -/

namespace Sys2Proof.Machine

/-! ### What all instructions share -/

theorem effect_advance_reg_of_not_written {i : Instr} {r : RegNum} (s : State) (hr : r ∉ writtenRegs i) :
    (effect i s).advance.reg r = s.reg r := by
  rw [advance_reg, effect_reg_of_not_written s hr]

/-- Only PRN and HLT touch a control field. -/
theorem effect_advance_sameControl {i : Instr} (s : State) (hprn : i.kind ≠ .prn) (hhlt : i.kind ≠ .hlt) :
    s.SameControl (effect i s).advance := by
  have hi : i ≠ .hlt := fun h => hhlt (congrArg Instr.kind h)
  refine ⟨?_, ?_, ?_, ?_⟩
  · rw [advance_ir, effect_ir]
  · rw [advance_running, effect_running, if_neg hi]
  · rw [advance_fault, effect_fault]
  · rw [advance_out, effect_out, output_eq_none s hprn, Option.toList_none, List.append_nil]

/-- Only PUSH and CALL touch memory. -/
theorem effect_advance_sameMemory {i : Instr} (s : State) (hpush : i.kind ≠ .push) (hcall : i.kind ≠ .call) :
    s.SameMemory (effect i s).advance := fun a => by
  rw [advance_mem, read_effect (.inr ⟨hpush, hcall⟩)]

/-- Beside the push address memory is as before. -/
theorem effect_advance_read_of_ne {i : Instr} {s : State} {b : Byte} (h : b ≠ s.pushAddr) :
    Memory.read (effect i s).advance.mem b = Memory.read s.mem b := by
  rw [advance_mem, read_effect (.inl h)]

/-- `pc` after an instruction that requests no load. -/
theorem effect_advance_pc_next {m : OpcodeMap} (hm : m.Valid) {i : Instr} {s : State} (hir : s.ir = m.byte i.kind)
    (hset : i.kind.setsPc = false) :
    (effect i s).advance.pc = s.pc + BitVec.ofNat 8 (i.kind.format.operandCount + 1) := by
  rw [effect_advance_pc hm hir, loadRequest_eq_none s hset, hir, nextInOrder_byte hm, Option.getD_none]

/-! ### LDI, PRN, HLT -/

/-- Settles O40: the destination by `setReg_reg_same`, the frame by what all instructions share. -/
theorem ldiLoadsTheImmediate : Obligations.LdiLoadsTheImmediate := by
  intro m ra imm s hm hir
  refine ⟨congrArg (· :: [regByte ra, imm]) (ldi_of_valid hm), _, exec_eq .., ?_, fun r hr => ?_, ?_, ?_, ?_⟩
  · exact (advance_reg ..).trans (setReg_reg_same ..)
  · exact effect_advance_reg_of_not_written s (by simpa [writtenRegs] using hr)
  · exact effect_advance_pc_next hm hir rfl
  · exact effect_advance_sameMemory s nofun nofun
  · exact effect_advance_sameControl s nofun nofun

/-- Settles O41: the output is `effect_out`'s, and no register is written. -/
theorem prnEmitsTheRegister : Obligations.PrnEmitsTheRegister := by
  intro m ra s hm hir
  refine ⟨congrArg (· :: [regByte ra]) (prn_of_valid hm), _, exec_eq .., ?_, fun r => ?_, ?_, ?_, ?_, ?_, ?_⟩
  · exact (advance_out _).trans (effect_out (.prn ra) s)
  · exact effect_advance_reg_of_not_written s List.not_mem_nil
  · exact effect_advance_pc_next hm hir rfl
  · exact effect_advance_sameMemory s nofun nofun
  · exact advance_ir _
  · exact advance_running _
  · exact advance_fault _

/-- Settles O42: HLT clears the flag, and a machine without it has no step (`step_stopped`). -/
theorem hltClearsTheRunFlag : Obligations.HltClearsTheRunFlag := by
  intro m s hm hir
  have hstop : (effect .hlt s).advance.running = false := advance_running _
  refine ⟨congrArg (· :: []) (hlt_of_valid hm), _, exec_eq .., hstop, ?_, fun r => ?_, ?_, ?_, ?_, ?_,
    step_stopped hstop⟩
  · exact effect_advance_pc_next hm hir rfl
  · exact effect_advance_reg_of_not_written s List.not_mem_nil
  · exact effect_advance_sameMemory s nofun nofun
  · exact (advance_ir _).trans (hir.trans (hlt_of_valid hm))
  · exact advance_fault _
  · exact advance_out _

/-! ### ADD, MUL -/

/-- Settles O43: the ALU truncates the exact result to eight bits. -/
theorem aluKeepsTheLowEightBits : Obligations.AluKeepsTheLowEightBits := fun _ _ =>
  ⟨_, _, rfl, rfl, BitVec.toNat_ofNat .., BitVec.toNat_ofNat ..⟩

/-- Settles O45: the destination holds the ALU's sum, the frame is what all instructions share. -/
theorem addWritesTheSum : Obligations.AddWritesTheSum := by
  intro m ra rb s hm hir
  refine ⟨rfl, _, exec_eq .., ?_, fun r hr => ?_, ?_, ?_, ?_⟩
  · rw [advance_reg, effect, setReg_reg_same, BitVec.toNat_ofNat]
  · exact effect_advance_reg_of_not_written s (by simpa [writtenRegs] using hr)
  · exact effect_advance_pc_next hm hir rfl
  · exact effect_advance_sameMemory s nofun nofun
  · exact effect_advance_sameControl s nofun nofun

/-- Settles O46: the destination holds the ALU's product, the frame is what all instructions share. -/
theorem mulWritesTheProduct : Obligations.MulWritesTheProduct := by
  intro m ra rb s hm hir
  refine ⟨congrArg (· :: [regByte ra, regByte rb]) (mul_of_valid hm), _, exec_eq .., ?_, fun r hr => ?_, ?_, ?_, ?_⟩
  · rw [advance_reg, effect, setReg_reg_same, BitVec.toNat_ofNat]
  · exact effect_advance_reg_of_not_written s (by simpa [writtenRegs] using hr)
  · exact effect_advance_pc_next hm hir rfl
  · exact effect_advance_sameMemory s nofun nofun
  · exact effect_advance_sameControl s nofun nofun

/-! ### PUSH, POP, CALL, RET -/

theorem not_mem_spIndex {r : RegNum} (hr : r ≠ 7) : r ∉ [Config.spIndex] := by
  simpa [Config.spIndex] using hr

/-- Settles O47: the stored byte is `push_load_same`, read after the decrement; other cells are not at the push
address. -/
theorem pushStoresAtTheDecrementedPointer : Obligations.PushStoresAtTheDecrementedPointer := by
  intro m ra s hm hir
  refine ⟨rfl, _, exec_eq .., ?_, fun r hr => ?_, ?_, fun hwf => ?_, fun a ha b hb => ?_, ?_⟩
  · exact (advance_reg ..).trans (push_sp s _)
  · exact effect_advance_reg_of_not_written s (not_mem_spIndex hr)
  · exact effect_advance_pc_next hm hir rfl
  · rw [advance_mem]
    exact (push_load_same s _ hwf).trans (decSp_reg s ra)
  · exact effect_advance_read_of_ne (ha ▸ hb)
  · exact effect_advance_sameControl s nofun nofun

/-- Settles O48: the destination is written before the increment, so POP R7 increments the loaded byte. -/
theorem popLoadsAndIncrementsThePointer : Obligations.PopLoadsAndIncrementsThePointer := by
  intro m ra s hm hir
  refine ⟨rfl, _, exec_eq .., fun hra => ⟨?_, ?_⟩, fun hra => ?_, fun r hr hsp => ?_, ?_, ?_, ?_⟩
  · exact (advance_reg ..).trans ((incSp_reg _ ra).trans ((if_neg hra).trans (setReg_reg_same ..)))
  · exact (advance_reg ..).trans ((incSp_sp _).trans (congrArg (· + 1#8) (setReg_sp_of_ne s _ hra)))
  · subst hra
    exact (advance_reg ..).trans ((incSp_sp _).trans (congrArg (· + 1#8) (setReg_reg_same ..)))
  · exact effect_advance_reg_of_not_written s (by simp [writtenRegs, Config.spIndex, hr, hsp])
  · exact effect_advance_pc_next hm hir rfl
  · exact effect_advance_sameMemory s nofun nofun
  · exact effect_advance_sameControl s nofun nofun

/-- Settles O49: `pc` is the load request, the register read after the push's decrement; the stored byte is
`push_load_same`. -/
theorem callPushesTheReturnAddressAndJumps : Obligations.CallPushesTheReturnAddressAndJumps := by
  intro m ra s hm hir
  refine ⟨rfl, _, exec_eq .., ?_, fun r hr => ?_, ?_, fun hwf => ?_, fun a ha b hb => ?_, ?_⟩
  · exact (advance_reg ..).trans (push_sp s State.returnAddress)
  · exact effect_advance_reg_of_not_written s (not_mem_spIndex hr)
  · exact (effect_advance_pc hm hir).trans (decSp_reg s ra)
  · rw [advance_mem]
    exact push_load_same s State.returnAddress hwf
  · exact effect_advance_read_of_ne (ha ▸ hb)
  · exact effect_advance_sameControl s nofun nofun

/-- Settles O50: `pc` is the load request, the byte at R7. -/
theorem retPopsIntoPc : Obligations.RetPopsIntoPc := by
  intro m s hm hir
  refine ⟨rfl, _, exec_eq .., ?_, ?_, fun r hr => ?_, ?_, ?_⟩
  · exact effect_advance_pc hm hir
  · exact (advance_reg ..).trans (incSp_sp _)
  · exact effect_advance_reg_of_not_written s (not_mem_spIndex hr)
  · exact effect_advance_sameMemory s nofun nofun
  · exact effect_advance_sameControl s nofun nofun

/-! ### Pairs and sequences of stack operations -/

/-- Settles O51 from the two instructions: POP finds at the decremented R7 the byte PUSH left there. -/
theorem pushThenPopRestoresTheRegisters : Obligations.PushThenPopRestoresTheRegisters := by
  intro m ra s hm hir hwf
  obtain ⟨-, s', hpush, hsp, hreg, hpc, hstored, hframe, -⟩ := pushStoresAtTheDecrementedPointer m ra s hm hir
  obtain ⟨-, t, hpop, hra, hr7, hother, hpc', hmem, -⟩ :=
    popLoadsAndIncrementsThePointer m ra (s'.setIr m.pop) hm rfl
  simp only [setIr_reg, setIr_mem, setIr_pc, State.SameMemory, hsp, hstored hwf] at hra hr7 hother hpc' hmem
  refine ⟨s', t, hpush, hpop, fun r => ?_, ?_, ?_, fun b hb => ?_⟩
  · by_cases h7 : ra = 7
    · subst h7
      by_cases hr : r = 7
      · rw [hr, hr7 rfl, if_pos rfl, BitVec.sub_add_cancel]
      · rw [hother r hr hr, hreg r hr]
    · obtain ⟨hdest, hinc⟩ := hra h7
      by_cases hr : r = 7
      · rw [hr, hinc, BitVec.sub_add_cancel]
      · by_cases hrra : r = ra
        · rw [hrra, hdest, if_neg h7]
        · rw [hother r hrra hr, hreg r hr]
  · rw [hpc', hpc, BitVec.add_assoc]
    rfl
  · rw [hmem, hstored hwf]
  · rw [hmem, hframe _ (pushAddr_eq s).symm b hb]

/-- Settles O52 from the two instructions: RET loads the byte CALL pushed, and increments what CALL decremented. -/
theorem returnResumesAfterTheCall : Obligations.ReturnResumesAfterTheCall := by
  intro m ra s hm hir hwf
  obtain ⟨-, t, hcall, hsp, -, -, hstored, hframe, -⟩ := callPushesTheReturnAddressAndJumps m ra s hm hir
  refine ⟨t, hcall, fun b hb => hframe _ (pushAddr_eq s).symm b hb, fun u huir hu7 humem => ?_⟩
  obtain ⟨-, v, hret, hpc, hv7, hother, hmem, -⟩ := retPopsIntoPc m u hm huir
  refine ⟨v, hret, ?_, ?_, hother, hmem⟩
  · rw [hpc, hu7, humem, hsp, hstored hwf]
  · rw [hv7, hu7, hsp, BitVec.sub_add_cancel]

/-- The pushes of a list of bytes, the first one first. -/
def pushAll (s : State) (vs : List Byte) : State := vs.foldl (fun s v => s.push fun _ => v) s

theorem pushAll_concat (s : State) (vs : List Byte) (v : Byte) :
    pushAll s (vs ++ [v]) = (pushAll s vs).push fun _ => v := List.foldl_concat ..

theorem pushAll_wf {s : State} (vs : List Byte) (h : Memory.wf s.mem = true) : Memory.wf (pushAll s vs).mem = true :=
  vs.foldlRecOn (motive := fun t : State => Memory.wf t.mem = true) _ h fun t ht v _ => by
    rw [push_mem]
    exact write_wf _ _ ht

theorem pushAll_sp (s : State) (vs : List Byte) : (pushAll s vs).sp = s.sp - BitVec.ofNat 8 vs.length := by
  induction vs using List.reverseRecOn with
  | nil => exact (BitVec.sub_zero _).symm
  | append_singleton vs v ih =>
    rw [pushAll_concat, push_sp, ih, List.length_append, List.length_singleton]
    bv_omega

/-- Up to 256 pushes overwrite no cell twice, so the cells from the new stack pointer on hold the bytes pushed, the last
one first. -/
theorem pushAll_load {s : State} (hwf : Memory.wf s.mem = true) {vs : List Byte} (hlen : vs.length ≤ 256) {k : Nat}
    {v : Byte} (hk : vs.reverse[k]? = some v) :
    (pushAll s vs).load ((pushAll s vs).sp + BitVec.ofNat 8 k) = v := by
  induction vs using List.reverseRecOn generalizing k with
  | nil => cases hk
  | append_singleton vs w ih =>
    rw [List.length_append, List.length_singleton] at hlen
    rw [List.reverse_concat] at hk
    rw [pushAll_concat, push_sp]
    cases k with
    | zero =>
      obtain rfl := Option.some.inj hk
      rw [BitVec.add_zero]
      exact push_load_same _ _ (pushAll_wf vs hwf)
    | succ k =>
      rw [List.getElem?_cons_succ] at hk
      have hkn : k < vs.length := by
        simpa using (List.getElem?_eq_some_iff.1 hk).1
      have hnext : (pushAll s vs).sp - 1#8 + BitVec.ofNat 8 (k + 1) = (pushAll s vs).sp + BitVec.ofNat 8 k := by
        bv_omega
      have hne : (pushAll s vs).sp + BitVec.ofNat 8 k ≠ (pushAll s vs).sp - 1#8 := by
        bv_omega
      rw [hnext, push_load_ne _ _ hne]
      exact ih (by omega) hk

/-- Settles O53: `pushAll_sp` and `pushAll_load`. -/
theorem pushedBytesStandInReverseOrder : Obligations.PushedBytesStandInReverseOrder := by
  intro s vs hwf hlen
  refine ⟨pushAll_sp s vs, fun k v hk => ?_⟩
  have hload := pushAll_load hwf hlen hk
  rwa [pushAll_sp] at hload

/-! ### Code and stack in one memory (R52, R83) -/

/-- Settles O54: the PUSH leaves the register at the address the next step fetches from. -/
theorem pushedByteIsFetchedByTheNextStep : Obligations.PushedByteIsFetchedByTheNextStep := by
  rintro s ra hr hwf hop rfl hne haddr
  obtain ⟨-, t, hexec, -, -, hpc, hstored, -, -, hrun, -⟩ :=
    pushStoresAtTheDecrementedPointer opcodes (regOf s.operandA) s.fetch opcodes_valid hop
  obtain ⟨u, hu⟩ := stepWith_next_of_running opcodes (hrun.trans hr)
  refine ⟨t, u, (stepWith_of_byte opcodes_valid (k := .push) hr hop).trans hexec, hu, ?_⟩
  rw [stepWith_ir hu, hpc, fetch_pc, ← haddr]
  exact (hstored hwf).trans (if_neg hne)

/-- Settles O55: the step runs the instruction decoded before its store, so the register and the length are those the
bytes named before. -/
theorem ownBytesAreReadBeforeTheStore : Obligations.OwnBytesAreReadBeforeTheStore := by
  constructor
  · rintro s ra hr hwf hop rfl hne haddr
    obtain ⟨-, t, hexec, -, -, hpc, hstored, -⟩ :=
      callPushesTheReturnAddressAndJumps opcodes (regOf s.operandA) s.fetch opcodes_valid hop
    refine ⟨t, (stepWith_of_byte opcodes_valid (k := .call) hr hop).trans hexec, hpc.trans (if_neg hne), ?_⟩
    exact (congrArg (Memory.read t.mem) haddr.symm).trans (hstored hwf)
  · rintro s ra hr hwf hop rfl hne haddr
    obtain ⟨-, t, hexec, -, -, hpc, hstored, -⟩ :=
      pushStoresAtTheDecrementedPointer opcodes (regOf s.operandA) s.fetch opcodes_valid hop
    refine ⟨t, (stepWith_of_byte opcodes_valid (k := .push) hr hop).trans hexec, hpc, ?_⟩
    exact (congrArg (Memory.read t.mem) haddr.symm).trans ((hstored hwf).trans (if_neg hne))

end Sys2Proof.Machine
